-- ==== Sys2Proof/Word.lean ====
section
/-! DEFINITION. Word.lean: the widths of the machine's values (R2, R10, R13, R14, R61). Arithmetic on them is
BitVec's, which wraps at the width (R134). -/

namespace Sys2Proof

/-- A general register, a memory cell, a timer, an `nn` immediate: 8 bits (R10, R18, R22, R61). -/
abbrev Byte := BitVec 8

/-- `I`, `PC`, a stack entry, an instruction word: 16 bits (R13, R14, R17, R60). -/
abbrev Word := BitVec 16

/-- An `nnn` immediate: 12 bits (R61). -/
abbrev Imm12 := BitVec 12

/-- One hexadecimal digit of an instruction word: 4 bits (R61). -/
abbrev Nibble := BitVec 4

/-- The number of a general register, 0 to 15 (R10, R61). -/
abbrev Reg := Fin 16

/-- The flag register VF is `V[15]` (R12). -/
abbrev Reg.vf : Reg := 15

end Sys2Proof
end

