-- ==== Sys2Proof/Syntax.lean ====
section
/-! DEFINITION. Syntax.lean: the 34 instructions of `spec/opcode_table.json` (R62), one constructor a row, with the
operands its pattern names (R61). -/

namespace Sys2Proof

/-- The instruction set. A constructor's docstring gives the spec's pattern, its mnemonic and the rule of its effect. -/
inductive Instr where
  /-- 00E0 `CLS` (R160) -/
  | cls
  /-- 00EE `RET` (R100) -/
  | ret
  /-- 1NNN `JP nnn` (R101) -/
  | jp (nnn : Imm12)
  /-- 2NNN `CALL nnn` (R102) -/
  | call (nnn : Imm12)
  /-- 3XNN `SE Vx, nn` (R104) -/
  | seImm (x : Reg) (nn : Byte)
  /-- 4XNN `SNE Vx, nn` (R105) -/
  | sneImm (x : Reg) (nn : Byte)
  /-- 5XY0 `SE Vx, Vy` (R106) -/
  | seReg (x y : Reg)
  /-- 6XNN `LD Vx, nn` (R121) -/
  | ldImm (x : Reg) (nn : Byte)
  /-- 7XNN `ADD Vx, nn` (R122) -/
  | addImm (x : Reg) (nn : Byte)
  /-- 8XY0 `LD Vx, Vy` (R123) -/
  | ldReg (x y : Reg)
  /-- 8XY1 `OR Vx, Vy` (R124) -/
  | orReg (x y : Reg)
  /-- 8XY2 `AND Vx, Vy` (R125) -/
  | andReg (x y : Reg)
  /-- 8XY3 `XOR Vx, Vy` (R126) -/
  | xorReg (x y : Reg)
  /-- 8XY4 `ADD Vx, Vy` (R127) -/
  | addReg (x y : Reg)
  /-- 8XY5 `SUB Vx, Vy` (R128) -/
  | subReg (x y : Reg)
  /-- 8XY6 `SHR Vx` (R130); `y` is decoded and ignored (R129) -/
  | shr (x y : Reg)
  /-- 8XY7 `SUBN Vx, Vy` (R131) -/
  | subnReg (x y : Reg)
  /-- 8XYE `SHL Vx` (R132); `y` is decoded and ignored (R129) -/
  | shl (x y : Reg)
  /-- 9XY0 `SNE Vx, Vy` (R107) -/
  | sneReg (x y : Reg)
  /-- ANNN `LD I, nnn` (R141) -/
  | ldI (nnn : Imm12)
  /-- BNNN `JP V0, nnn` (R103) -/
  | jpV0 (nnn : Imm12)
  /-- CXNN `RND Vx, nn` (R133) -/
  | rnd (x : Reg) (nn : Byte)
  /-- DXYN `DRW Vx, Vy, n` (R161); `n` is a count of sprite rows, 0 to 15 (`Instr.WellFormed`) -/
  | drw (x y : Reg) (n : Nat)
  /-- EX9E `SKP Vx` (R171) -/
  | skp (x : Reg)
  /-- EXA1 `SKNP Vx` (R172) -/
  | sknp (x : Reg)
  /-- FX07 `LD Vx, DT` (R175) -/
  | ldVxDt (x : Reg)
  /-- FX0A `LD Vx, K` (R174) -/
  | ldVxK (x : Reg)
  /-- FX15 `LD DT, Vx` (R176) -/
  | ldDtVx (x : Reg)
  /-- FX18 `LD ST, Vx` (R177) -/
  | ldStVx (x : Reg)
  /-- FX1E `ADD I, Vx` (R142) -/
  | addI (x : Reg)
  /-- FX29 `LD F, Vx` (R143) -/
  | ldF (x : Reg)
  /-- FX33 `LD B, Vx` (R144) -/
  | ldB (x : Reg)
  /-- FX55 `LD [I], Vx` (R145) -/
  | stRegs (x : Reg)
  /-- FX65 `LD Vx, [I]` (R146) -/
  | ldRegs (x : Reg)
deriving DecidableEq, Repr

end Sys2Proof
end

