-- ==== Sys2Proof/Decode.lean ====
section
/-! DEFINITION. Decode.lean: the decoder (R64), total on words and on byte lists, rejecting by name (R65), and after it
the encoder, written from the patterns of R62. -/

namespace Sys2Proof

/-! ### Fields of a word (R61) -/

/-- `op = w[15:12]`. -/
def opField (w : Word) : Nibble := w.extractLsb' 12 4
/-- `w[11:8]`, the X digit. -/
def xField (w : Word) : Nibble := w.extractLsb' 8 4
/-- `w[7:4]`, the Y digit. -/
def yField (w : Word) : Nibble := w.extractLsb' 4 4
/-- `n = w[3:0]`. -/
def nField (w : Word) : Nibble := w.extractLsb' 0 4
/-- `nn = w[7:0]`. -/
def nnField (w : Word) : Byte := w.extractLsb' 0 8
/-- `nnn = w[11:0]`. -/
def nnnField (w : Word) : Imm12 := w.extractLsb' 0 12

/-- A register field read as a register number (R61: unsigned, exactly the number its bits spell). -/
def regOf (d : Nibble) : Reg := d.toFin

/-- The word of two bytes, the byte at the lower address being `w[15:8]` (R41). -/
def wordOfBytes (hi lo : Byte) : Word := hi ++ lo

/-! ### Decoding (R64) -/

/-- Why a bit pattern is no instruction: the row of R65's table it falls under, or too few bytes. -/
inductive DecodeError where
  /-- 0NNN other than 00E0 and 00EE -/
  | invalidMajor0
  /-- 5XYn with n not 0 -/
  | invalidMajor5
  /-- 8XYn with n in 8, 9, A, B, C, D, F -/
  | invalidMajor8
  /-- 9XYn with n not 0 -/
  | invalidMajor9
  /-- EXnn with nn not 9E and not A1 -/
  | invalidMajorE
  /-- FXnn with nn none of 07, 0A, 15, 18, 1E, 29, 33, 55, 65 -/
  | invalidMajorF
  /-- fewer than the two bytes of an instruction (R60) -/
  | truncated
deriving DecidableEq, Repr

/-- Major opcode 0: two exact words (R62 rows 1 and 2). -/
def decodeMajor0 (w : Word) : Except DecodeError Instr :=
  if w = 0x00E0#16 then .ok .cls else if w = 0x00EE#16 then .ok .ret else .error .invalidMajor0

/-- Major opcode 8: the minor opcode is the last digit (R62 rows 10 to 18, R63). -/
def decodeMajor8 (x y : Reg) (n : Nibble) : Except DecodeError Instr :=
  match n.toNat with
  | 0x0 => .ok (.ldReg x y)
  | 0x1 => .ok (.orReg x y)
  | 0x2 => .ok (.andReg x y)
  | 0x3 => .ok (.xorReg x y)
  | 0x4 => .ok (.addReg x y)
  | 0x5 => .ok (.subReg x y)
  | 0x6 => .ok (.shr x y)
  | 0x7 => .ok (.subnReg x y)
  | 0xE => .ok (.shl x y)
  | _ => .error .invalidMajor8

/-- Major opcode E: the minor opcode is the low byte (R62 rows 24 and 25). -/
def decodeMajorE (x : Reg) (nn : Byte) : Except DecodeError Instr :=
  match nn.toNat with
  | 0x9E => .ok (.skp x)
  | 0xA1 => .ok (.sknp x)
  | _ => .error .invalidMajorE

/-- Major opcode F: the minor opcode is the low byte (R62 rows 26 to 34). -/
def decodeMajorF (x : Reg) (nn : Byte) : Except DecodeError Instr :=
  match nn.toNat with
  | 0x07 => .ok (.ldVxDt x)
  | 0x0A => .ok (.ldVxK x)
  | 0x15 => .ok (.ldDtVx x)
  | 0x18 => .ok (.ldStVx x)
  | 0x1E => .ok (.addI x)
  | 0x29 => .ok (.ldF x)
  | 0x33 => .ok (.ldB x)
  | 0x55 => .ok (.stRegs x)
  | 0x65 => .ok (.ldRegs x)
  | _ => .error .invalidMajorF

/-- R64: from a word to one of the 34 instructions with its fields, or to an error. It looks at the word alone. -/
def decode (w : Word) : Except DecodeError Instr :=
  let x := regOf (xField w)
  let y := regOf (yField w)
  let n := nField w
  let nn := nnField w
  let nnn := nnnField w
  match (opField w).toNat with
  | 0x0 => decodeMajor0 w
  | 0x1 => .ok (.jp nnn)
  | 0x2 => .ok (.call nnn)
  | 0x3 => .ok (.seImm x nn)
  | 0x4 => .ok (.sneImm x nn)
  | 0x5 => if n = 0x0#4 then .ok (.seReg x y) else .error .invalidMajor5
  | 0x6 => .ok (.ldImm x nn)
  | 0x7 => .ok (.addImm x nn)
  | 0x8 => decodeMajor8 x y n
  | 0x9 => if n = 0x0#4 then .ok (.sneReg x y) else .error .invalidMajor9
  | 0xA => .ok (.ldI nnn)
  | 0xB => .ok (.jpV0 nnn)
  | 0xC => .ok (.rnd x nn)
  | 0xD => .ok (.drw x y n.toNat)
  | 0xE => decodeMajorE x nn
  | _ => decodeMajorF x nn -- 0xF: `op` has four bits

/-- Decoding from bytes in memory order: two bytes, the first one `w[15:8]` (R41, R60), and the bytes that are left. -/
def decodeBytes : List Byte → Except DecodeError (Instr × List Byte)
  | hi :: lo :: rest => (decode (wordOfBytes hi lo)).map (fun i => (i, rest))
  | _ => .error .truncated

/-! ### Encoding (R62) -/

/-- A register number as a field. -/
def digit (r : Reg) : Nibble := BitVec.ofFin r

/-- Format A: `op`, `nnn`. -/
def formatA (op : Nibble) (nnn : Imm12) : Word := op ++ nnn
/-- Format XK, and XF with the minor opcode as the byte: `op`, `x`, `nn`. -/
def formatXK (op : Nibble) (x : Reg) (nn : Byte) : Word := op ++ (digit x ++ nn)
/-- Format XY, and XYN with the row count as the last digit: `op`, `x`, `y`, `n`. -/
def formatXYN (op : Nibble) (x y : Reg) (n : Nibble) : Word := op ++ (digit x ++ (digit y ++ n))

/-- The word of a well-formed instruction (R62). -/
def encode : Instr → Word
  | .cls => 0x00E0#16
  | .ret => 0x00EE#16
  | .jp nnn => formatA 0x1#4 nnn
  | .call nnn => formatA 0x2#4 nnn
  | .seImm x nn => formatXK 0x3#4 x nn
  | .sneImm x nn => formatXK 0x4#4 x nn
  | .seReg x y => formatXYN 0x5#4 x y 0x0#4
  | .ldImm x nn => formatXK 0x6#4 x nn
  | .addImm x nn => formatXK 0x7#4 x nn
  | .ldReg x y => formatXYN 0x8#4 x y 0x0#4
  | .orReg x y => formatXYN 0x8#4 x y 0x1#4
  | .andReg x y => formatXYN 0x8#4 x y 0x2#4
  | .xorReg x y => formatXYN 0x8#4 x y 0x3#4
  | .addReg x y => formatXYN 0x8#4 x y 0x4#4
  | .subReg x y => formatXYN 0x8#4 x y 0x5#4
  | .shr x y => formatXYN 0x8#4 x y 0x6#4
  | .subnReg x y => formatXYN 0x8#4 x y 0x7#4
  | .shl x y => formatXYN 0x8#4 x y 0xE#4
  | .sneReg x y => formatXYN 0x9#4 x y 0x0#4
  | .ldI nnn => formatA 0xA#4 nnn
  | .jpV0 nnn => formatA 0xB#4 nnn
  | .rnd x nn => formatXK 0xC#4 x nn
  | .drw x y n => formatXYN 0xD#4 x y (BitVec.ofNat 4 n)
  | .skp x => formatXK 0xE#4 x 0x9E#8
  | .sknp x => formatXK 0xE#4 x 0xA1#8
  | .ldVxDt x => formatXK 0xF#4 x 0x07#8
  | .ldVxK x => formatXK 0xF#4 x 0x0A#8
  | .ldDtVx x => formatXK 0xF#4 x 0x15#8
  | .ldStVx x => formatXK 0xF#4 x 0x18#8
  | .addI x => formatXK 0xF#4 x 0x1E#8
  | .ldF x => formatXK 0xF#4 x 0x29#8
  | .ldB x => formatXK 0xF#4 x 0x33#8
  | .stRegs x => formatXK 0xF#4 x 0x55#8
  | .ldRegs x => formatXK 0xF#4 x 0x65#8

/-! ### The opcode table (R62) -/

/-- A row of R62: a word `w` is the row's instruction exactly when `w & mask = fixed` (the table's `match`). -/
structure Pattern where
  mask : Word
  fixed : Word
deriving DecidableEq, Repr

/-- R62's test of a word against a row. -/
def Pattern.holds (p : Pattern) (w : Word) : Bool := w &&& p.mask == p.fixed

/-- The row of R62 an instruction stands for. -/
def Instr.pattern : Instr → Pattern
  | .cls => ⟨0xFFFF#16, 0x00E0#16⟩
  | .ret => ⟨0xFFFF#16, 0x00EE#16⟩
  | .jp _ => ⟨0xF000#16, 0x1000#16⟩
  | .call _ => ⟨0xF000#16, 0x2000#16⟩
  | .seImm _ _ => ⟨0xF000#16, 0x3000#16⟩
  | .sneImm _ _ => ⟨0xF000#16, 0x4000#16⟩
  | .seReg _ _ => ⟨0xF00F#16, 0x5000#16⟩
  | .ldImm _ _ => ⟨0xF000#16, 0x6000#16⟩
  | .addImm _ _ => ⟨0xF000#16, 0x7000#16⟩
  | .ldReg _ _ => ⟨0xF00F#16, 0x8000#16⟩
  | .orReg _ _ => ⟨0xF00F#16, 0x8001#16⟩
  | .andReg _ _ => ⟨0xF00F#16, 0x8002#16⟩
  | .xorReg _ _ => ⟨0xF00F#16, 0x8003#16⟩
  | .addReg _ _ => ⟨0xF00F#16, 0x8004#16⟩
  | .subReg _ _ => ⟨0xF00F#16, 0x8005#16⟩
  | .shr _ _ => ⟨0xF00F#16, 0x8006#16⟩
  | .subnReg _ _ => ⟨0xF00F#16, 0x8007#16⟩
  | .shl _ _ => ⟨0xF00F#16, 0x800E#16⟩
  | .sneReg _ _ => ⟨0xF00F#16, 0x9000#16⟩
  | .ldI _ => ⟨0xF000#16, 0xA000#16⟩
  | .jpV0 _ => ⟨0xF000#16, 0xB000#16⟩
  | .rnd _ _ => ⟨0xF000#16, 0xC000#16⟩
  | .drw _ _ _ => ⟨0xF000#16, 0xD000#16⟩
  | .skp _ => ⟨0xF0FF#16, 0xE09E#16⟩
  | .sknp _ => ⟨0xF0FF#16, 0xE0A1#16⟩
  | .ldVxDt _ => ⟨0xF0FF#16, 0xF007#16⟩
  | .ldVxK _ => ⟨0xF0FF#16, 0xF00A#16⟩
  | .ldDtVx _ => ⟨0xF0FF#16, 0xF015#16⟩
  | .ldStVx _ => ⟨0xF0FF#16, 0xF018#16⟩
  | .addI _ => ⟨0xF0FF#16, 0xF01E#16⟩
  | .ldF _ => ⟨0xF0FF#16, 0xF029#16⟩
  | .ldB _ => ⟨0xF0FF#16, 0xF033#16⟩
  | .stRegs _ => ⟨0xF0FF#16, 0xF055#16⟩
  | .ldRegs _ => ⟨0xF0FF#16, 0xF065#16⟩

/-- R62's 34 rows in the table's order. -/
def opcodeTable : List Pattern :=
  [⟨0xFFFF#16, 0x00E0#16⟩, ⟨0xFFFF#16, 0x00EE#16⟩, ⟨0xF000#16, 0x1000#16⟩, ⟨0xF000#16, 0x2000#16⟩, ⟨0xF000#16, 0x3000#16⟩,
   ⟨0xF000#16, 0x4000#16⟩, ⟨0xF00F#16, 0x5000#16⟩, ⟨0xF000#16, 0x6000#16⟩, ⟨0xF000#16, 0x7000#16⟩, ⟨0xF00F#16, 0x8000#16⟩,
   ⟨0xF00F#16, 0x8001#16⟩, ⟨0xF00F#16, 0x8002#16⟩, ⟨0xF00F#16, 0x8003#16⟩, ⟨0xF00F#16, 0x8004#16⟩, ⟨0xF00F#16, 0x8005#16⟩,
   ⟨0xF00F#16, 0x8006#16⟩, ⟨0xF00F#16, 0x8007#16⟩, ⟨0xF00F#16, 0x800E#16⟩, ⟨0xF00F#16, 0x9000#16⟩, ⟨0xF000#16, 0xA000#16⟩,
   ⟨0xF000#16, 0xB000#16⟩, ⟨0xF000#16, 0xC000#16⟩, ⟨0xF000#16, 0xD000#16⟩, ⟨0xF0FF#16, 0xE09E#16⟩, ⟨0xF0FF#16, 0xE0A1#16⟩,
   ⟨0xF0FF#16, 0xF007#16⟩, ⟨0xF0FF#16, 0xF00A#16⟩, ⟨0xF0FF#16, 0xF015#16⟩, ⟨0xF0FF#16, 0xF018#16⟩, ⟨0xF0FF#16, 0xF01E#16⟩,
   ⟨0xF0FF#16, 0xF029#16⟩, ⟨0xF0FF#16, 0xF033#16⟩, ⟨0xF0FF#16, 0xF055#16⟩, ⟨0xF0FF#16, 0xF065#16⟩]

/-! ### Words as bytes -/

/-- `w[15:8]`, the byte at the lower address (R41). -/
def hiByte (w : Word) : Byte := w.extractLsb' 8 8
/-- `w[7:0]`, the byte at the higher address (R41). -/
def loByte (w : Word) : Byte := w.extractLsb' 0 8

/-- The two bytes of a well-formed instruction, in memory order. -/
def encodeBytes (i : Instr) : List Byte := [hiByte (encode i), loByte (encode i)]

/-- A word given as the opcode table numbers its bits: bit 0 the least significant, `nbits` bits, the others 0. -/
def tableWord (nbits w : Nat) : Word := BitVec.ofNat 16 (w % 2 ^ nbits)

/-- The instruction the decoder reads from a table word laid out in memory order (R41: the high byte first). -/
def decodeTableWord (nbits w : Nat) : Option Instr :=
  match decodeBytes [hiByte (tableWord nbits w), loByte (tableWord nbits w)] with
  | .ok (i, _) => some i
  | .error _ => none

end Sys2Proof
end

