-- ==== Sys2Proof/Config.lean ====
section
/-! DEFINITION. Config.lean: what the spec fixes for this hardware as constants, and the values it leaves open.

An open value is an `opaque` constant with no body: no proof can see what it is, so a statement that mentions
one holds whatever the value is. -/

namespace Sys2Proof.Config

/-- `MEM_SIZE` (R2): addresses 0x000 to 0xFFF. -/
def memSize : Nat := 4096

/-- `PROG_BASE` (R2): where LOAD puts the first ROM byte, and the program's entry point. -/
def progBase : Nat := 0x200

/-- `ROM_MAX` (R2): the longest ROM LOAD accepts. -/
def romMax : Nat := 0x0E00

/-- `STACK_DEPTH` (R2). -/
def stackDepth : Nat := 16

/-- `FONT_BASE` (R3): OPEN in the spec, with the one constraint `FONT_BASE + 80 <= 0x200`, which is what the type
says (433 = 0x200 - 80 + 1). No proof can see the value (log 2). -/
opaque fontBase : Fin 433

/-- The bytes that stand on the `rand8` input of the core, the n-th free one being `freeRand8 n` (R133: "any of the
256 values, under no law, chosen afresh at every execution"). No proof can see a value (log 1). -/
opaque freeRand8 : Nat → BitVec 8

end Sys2Proof.Config
end

