-- ==== Sys2Proof/Machine/State.lean ====
section
/-! DEFINITION. Machine/State.lean: every piece of state the spec gives the machine (10_state.md), the reasons a step
can stop, and the state after RESET (R25, R240). -/

namespace Sys2Proof.Machine

/-- Memory as the list of the bytes that differ from the reset contents, by strictly rising address (log 4). The
operations on it, and the canonical form, are in Machine/Memory.lean. -/
abbrev Memory := List Host.Cell

/-- The display: 32 rows of 64 pixels, on or off; `disp[y][x]` as in R19. -/
abbrev Display := Vector (Vector Bool 64) 32

/-- The state of the core (R10 to R22; R24: there is no other), and the model's own input port. -/
structure State where
  /-- `V[0]` to `V[15]` (R10) -/
  v : Vector Byte 16
  /-- the index register `I` (R13) -/
  i : Word
  /-- the program counter `PC` (R14) -/
  pc : Word
  /-- the call stack's entries (R17) -/
  stack : Vector Word 16
  /-- `SP`, the number of live entries, 0 to 16 (R17) -/
  sp : Fin 17
  /-- the delay timer `DT` (R18) -/
  dt : Byte
  /-- the sound timer `ST` (R18) -/
  st : Byte
  /-- the pixels (R19) -/
  disp : Display
  /-- the key latch: `keys[k]`, key `k` is held down (R20) -/
  keys : Vector Bool 16
  /-- `WAIT`: `none` is Running, `some r` is AwaitingKey for `V[r]` (R21) -/
  wait : Option Reg
  /-- the 4096 bytes (R22) -/
  mem : Memory
  /-- the MODEL's own: the byte on the `rand8` input of the coming TICK (R133, log 1) -/
  rand8 : Byte
  /-- the MODEL's own: how many free bytes have been put on that input (log 1) -/
  draws : Nat
deriving DecidableEq, Repr

/-- The six faults (R200, R201). Each is what the hardware itself returns, with the state unchanged (R203), so
stopping with one is safe: the machine does the same. -/
inductive Fault where
  /-- raised by LOAD of a ROM longer than 3584 bytes (R243); safe -/
  | romTooLarge
  /-- raised by TICK when the fetched word matches no pattern (R83); safe -/
  | invalidOpcode
  /-- raised by 2NNN with `SP = 16` (R102); safe -/
  | stackOverflow
  /-- raised by 00EE with `SP = 0` (R100); safe -/
  | stackUnderflow
  /-- raised by a fetch, DXYN, FX33, FX55 or FX65 that would leave memory (R40, R82); safe -/
  | outOfBoundsAccess
  /-- raised by KEYPRESS with a key code above 15 (R226); safe -/
  | invalidKeyCode
deriving DecidableEq, Repr

/-- Refusals: reasons to give no answer at all. Every instruction has a meaning, so none is raised. -/
inductive Refusal where
  /-- raised by `exec` for an instruction with no meaning yet (no arm does so); safe -/
  | notModelled (mnemonic : String)
deriving DecidableEq, Repr

/-- What an event answers: the next state, or a fault. -/
abbrev Result := Host.Outcome State Fault Refusal

/-- A display with every pixel off (R19). -/
def blankDisplay : Display := Vector.replicate 32 (Vector.replicate 64 false)

/-- The machine after RESET (R25, R240): everything 0, no pending key-wait, no byte of memory different from the reset
contents (the font included). The two last fields are the model's own (log 1). -/
def State.reset : State where
  v := Vector.replicate 16 0
  i := 0
  pc := 0
  stack := Vector.replicate 16 0
  sp := 0
  dt := 0
  st := 0
  disp := blankDisplay
  keys := Vector.replicate 16 false
  wait := none
  mem := []
  rand8 := Config.freeRand8 0
  draws := 1

end Sys2Proof.Machine
end

