-- ==== Sys2Proof/Machine/Memory.lean ====
section
/-! DEFINITION. Machine/Memory.lean: the one array of 4096 bytes (R22): its reset contents with the font (R23, R25), its
canonical form, reading and writing a byte, and the two primitives with their bounds check (R40). -/

namespace Sys2Proof.Machine

/-- `FONT_DATA`: the 16 glyphs of R23's table, five bytes each, top row first (log 3). -/
def fontData : List Byte :=
  [0xF0, 0x90, 0x90, 0x90, 0xF0,  0x20, 0x60, 0x20, 0x20, 0x70,
   0xF0, 0x10, 0xF0, 0x80, 0xF0,  0xF0, 0x10, 0xF0, 0x10, 0xF0] ++
  [0x90, 0x90, 0xF0, 0x10, 0x10,  0xF0, 0x80, 0xF0, 0x10, 0xF0,
   0xF0, 0x80, 0xF0, 0x90, 0xF0,  0xF0, 0x10, 0x20, 0x40, 0x40] ++
  [0xF0, 0x90, 0xF0, 0x90, 0xF0,  0xF0, 0x90, 0xF0, 0x10, 0xF0,
   0xF0, 0x90, 0xF0, 0x90, 0x90,  0xE0, 0x90, 0xE0, 0x90, 0xE0] ++
  [0xF0, 0x80, 0x80, 0x80, 0xF0,  0xE0, 0x90, 0x90, 0x90, 0xE0,
   0xF0, 0x80, 0xF0, 0x80, 0xF0,  0xF0, 0x80, 0xF0, 0x80, 0x80]

/-- `GLYPH_BYTES` (R3, R23; log 3). -/
def glyphBytes : Nat := 5

/-- `FONT_BASE`, the open address of the font (R3; log 2). -/
def fontBase : Nat := Config.fontBase.val

/-- The reset contents of address `a` for a font at `base`: the font's 80 bytes, and 0 everywhere else (R25). The font
lies below 0x200 (R3), so at and above 0x200 the answer does not depend on `base`. -/
def resetByteFor (base a : Nat) : Byte :=
  if a < Config.progBase then (if base ≤ a then fontData.getD (a - base) 0 else 0) else 0

/-- What an address that memory does not list reads as: its contents after RESET (R25; log 4). -/
def resetByte (a : Nat) : Byte := resetByteFor fontBase a

/-- The canonical form: addresses strictly rising, all below 4096, no entry equal to the reset contents. -/
abbrev Memory.wf (m : Memory) : Prop :=
  (m.map Prod.fst).Pairwise (· < ·) ∧ ∀ c ∈ m, c.1 < Config.memSize ∧ c.2 ≠ resetByte c.1

/-- The byte at address `a`. -/
def Memory.read : Memory → Nat → Byte
  | [], a => resetByte a
  | (b, w) :: m, a => if a = b then w else Memory.read m a

/-- Memory with address `a` not listed: it reads as its reset contents. -/
def Memory.erase (m : Memory) (a : Nat) : Memory := m.filter fun c => c.1 != a

/-- Memory with `(a, x)` put before the first entry of a higher address. -/
def Memory.insert : Memory → Nat → Byte → Memory
  | [], a, x => [(a, x)]
  | (b, w) :: m, a, x => if a < b then (a, x) :: (b, w) :: m else (b, w) :: Memory.insert m a x

/-- Memory with byte `x` at address `a`, in canonical form: a byte equal to the reset contents is not listed. -/
def Memory.write (m : Memory) (a : Nat) (x : Byte) : Memory :=
  if x = resetByte a then m.erase a else (m.erase a).insert a x

/-! ### The primitives of R40: the address is an unbounded number, checked before the access -/

/-- `MemRead(addr, 1)`. -/
def memRead (m : Memory) (a : Nat) : Except Fault Byte :=
  if a + 1 > Config.memSize then .error .outOfBoundsAccess else .ok (m.read a)

/-- `MemRead(addr, 2)`: big-endian (R41). -/
def memRead2 (m : Memory) (a : Nat) : Except Fault Word :=
  if a + 2 > Config.memSize then .error .outOfBoundsAccess else .ok (m.read a ++ m.read (a + 1))

/-- `MemWrite(addr, 1, v)`. -/
def memWrite (m : Memory) (a : Nat) (x : Byte) : Except Fault Memory :=
  if a + 1 > Config.memSize then .error .outOfBoundsAccess else .ok (m.write a x)

/-- `n` bytes from ascending addresses (R42). An access out of range fails the whole block. -/
def readBlock (m : Memory) (a : Nat) : Nat → Except Fault (List Byte)
  | 0 => .ok []
  | n + 1 =>
    match memRead m a, readBlock m (a + 1) n with
    | .ok x, .ok xs => .ok (x :: xs)
    | .error f, _ => .error f
    | _, .error f => .error f

/-- A list of bytes stored at ascending addresses (R42). An access out of range fails the whole block, and no part of
it is kept: a fault leaves the state unchanged (R203). -/
def writeBlock (m : Memory) (a : Nat) : List Byte → Except Fault Memory
  | [] => .ok m
  | x :: xs =>
    match memWrite m a x with
    | .ok m' => writeBlock m' (a + 1) xs
    | .error f => .error f

end Sys2Proof.Machine
end

