-- ==== Sys2Proof/Machine/Ops.lean ====
section
/-! DEFINITION. Machine/Ops.lean: the named operations on the state that the meanings are written with: raising a fault,
the registers, the program counter and fetch, the call stack, the display, the keys. -/

namespace Sys2Proof.Machine

/-! ### Faults: what this hardware has in place of exceptions (R200 to R204) -/

/-- `raise`: the event ends with the fault, and nothing it did is kept: the answer carries no state (R203; log 7).
No register is saved, no mode changes and control goes nowhere, so there is no return from it (R203, R204). -/
def raise (f : Fault) : Result := .fault f

/-- Go on with what an access gave, or raise the fault it met. -/
def andThen {α : Type} (e : Except Fault α) (k : α → Result) : Result :=
  match e with
  | .ok a => k a
  | .error f => raise f

/-! ### General registers (R10) -/

/-- `V[r]`. -/
def State.reg (s : State) (r : Reg) : Byte := s.v[r.val]

/-- `V[r] <- b`. -/
def State.setReg (s : State) (r : Reg) (b : Byte) : State := { s with v := s.v.set r.val b }

/-- `V[x] <- b` and then `V[15] <- flag`: VF is written last (R120; log 10). -/
def State.setRegFlag (s : State) (x : Reg) (b flag : Byte) : State := (s.setReg x b).setReg Reg.vf flag

/-- `V[0]` to `V[x]`, in that order (R145). -/
def State.regsUpTo (s : State) (x : Reg) : List Byte := s.v.toList.take (x.val + 1)

/-- Bytes into consecutive registers from `V[k]` upward (R146). -/
def fillRegs (v : Vector Byte 16) (k : Nat) : List Byte → Vector Byte 16
  | [] => v
  | b :: bs => fillRegs (v.setIfInBounds k b) (k + 1) bs

/-! ### Program counter and fetch -/

/-- PC moved on by 2, past one instruction (R84). -/
def State.advance (s : State) : State := { s with pc := s.pc + 2#16 }

/-- A skip: 2 more on the already advanced PC when the condition holds (41_control_flow.md section 3). -/
def State.skipIf (s : State) (c : Bool) : State := if c then s.advance else s

/-- The fetch: the big-endian word at PC, whatever PC's parity (R41, R43, R81), or OutOfBoundsAccess (R82). -/
def State.fetch (s : State) : Except Fault Word := memRead2 s.mem s.pc.toNat

/-! ### The call stack (R17) -/

/-- `push(v)`. -/
def State.push (s : State) (w : Word) : Except Fault State :=
  if h : s.sp.val < 16 then
    .ok { s with stack := s.stack.set s.sp.val w, sp := ⟨s.sp.val + 1, by omega⟩ }
  else .error .stackOverflow

/-- `pop()`: the popped value and the state after it. -/
def State.pop (s : State) : Except Fault (Word × State) :=
  if h : s.sp.val = 0 then .error .stackUnderflow
  else .ok (s.stack[s.sp.val - 1]'(by omega), { s with sp := ⟨s.sp.val - 1, by omega⟩ })

/-! ### The display (R19, R161, R162) -/

/-- `disp[py][px]`. -/
def Display.pixel (d : Display) (px : Fin 64) (py : Fin 32) : Bool := d[py.val][px.val]

/-- The display with one pixel inverted. -/
def Display.flip (d : Display) (px : Fin 64) (py : Fin 32) : Display :=
  d.set py.val (d[py.val].set px.val (!d[py.val][px.val]))

/-- Column `x0 + c` on the screen: every pixel's coordinate is reduced, so a sprite wraps (R162). -/
def screenCol (x0 c : Nat) : Fin 64 := ⟨(x0 + c) % 64, Nat.mod_lt _ (by decide)⟩

/-- Row `y0 + r` on the screen (R162). -/
def screenRow (y0 r : Nat) : Fin 32 := ⟨(y0 + r) % 32, Nat.mod_lt _ (by decide)⟩

/-- Sprite column `c` of a row byte is bit `7 - c`: bit 7 is the leftmost pixel (R162; log 8). -/
def spriteBit (b : Byte) (c : Nat) : Bool := b.getLsbD (7 - c)

/-- What a draw carries along: the display, and whether a pixel has been turned off (R161's `hit`). -/
structure Drawing where
  disp : Display
  hit : Bool
deriving DecidableEq, Repr

/-- One sprite pixel on screen column `px`, row `py`: a 1 bit inverts the pixel and notes whether it was on, a 0 bit
leaves it (R161). -/
def Drawing.plot (g : Drawing) (on : Bool) (px : Fin 64) (py : Fin 32) : Drawing :=
  if on then { disp := g.disp.flip px py, hit := g.hit || g.disp.pixel px py } else g

/-- One sprite row: columns 0 to 7 of byte `b` (R161). -/
def Drawing.plotRow (g : Drawing) (x0 : Nat) (py : Fin 32) (b : Byte) : Drawing :=
  (List.range 8).foldl (fun g c => g.plot (spriteBit b c) (screenCol x0 c) py) g

/-- The rows of a sprite from row `r` on, one byte a row, downward from screen row `y0` (R161). -/
def Drawing.plotRows (g : Drawing) (x0 y0 r : Nat) : List Byte → Drawing
  | [] => g
  | b :: bs => (g.plotRow x0 (screenRow y0 r) b).plotRows x0 y0 (r + 1) bs

/-- The 2048 pixels in row-major order, element `64*y + x` being `disp[y][x]` (R19, R228). -/
def Display.rowMajor (d : Display) : List Bool := d.toList.flatMap Vector.toList

/-! ### The keys (R20) -/

/-- `keys[k]`. -/
def State.key (s : State) (k : Fin 16) : Bool := s.keys[k.val]

end Sys2Proof.Machine
end

