-- ==== Sys2Proof/Machine/Flags.lean ====
section
/-! DEFINITION. Machine/Flags.lean: the values VF takes as a flag (R12). There is no other flag. -/

namespace Sys2Proof.Machine

/-- A flag as the byte VF holds: 1 or 0 (R12). -/
def flagByte (c : Bool) : Byte := if c then 1 else 0

/-- Carry out of bit 7: the exact sum exceeds 255 (R127). -/
def carryFlag (a b : Byte) : Byte := flagByte (decide (a.toNat + b.toNat > 255))

/-- NOT borrow of `a - b`: 1 exactly when `a >= b` as unsigned numbers (R128, R131). -/
def notBorrowFlag (a b : Byte) : Byte := flagByte (decide (a.toNat ≥ b.toNat))

/-- The bit a right shift by one drops (R130). -/
def droppedLowFlag (a : Byte) : Byte := flagByte (a.getLsbD 0)

/-- The bit a left shift by one drops (R132). -/
def droppedHighFlag (a : Byte) : Byte := flagByte (a.getLsbD 7)

end Sys2Proof.Machine
end

