-- ==== Sys2Proof/Machine/Operands.lean ====
section
/-! DEFINITION. Machine/Operands.lean: the operand forms of the instructions that are more than a register read (R61,
R67, R140, R143, R170). -/

namespace Sys2Proof.Machine

/-- An address immediate or a register as a 16-bit number: zero-extended, never scaled (R61, R67). -/
def zext16 {n : Nat} (b : BitVec n) : Word := b.setWidth 16

/-- The base address of FX33, FX55, FX65 and DXYN: `I` as an unbounded number (R40, R140). -/
def State.base (s : State) : Nat := s.i.toNat

/-- The low nibble of a byte, as the number of a digit, a glyph or a key (R143, R170; log 11). -/
def lowNibble (b : Byte) : Fin 16 := (b.extractLsb' 0 4).toFin

/-- The address of a digit's glyph for a font at `base` (R143). -/
def glyphAddressFor (base : Nat) (d : Fin 16) : Word := BitVec.ofNat 16 (base + glyphBytes * d.val)

/-- The address of a digit's glyph (R143; log 2). -/
def glyphAddress (d : Fin 16) : Word := glyphAddressFor fontBase d

/-- The three decimal digits of a byte: hundreds, tens, ones (R144). -/
def bcdDigits (b : Byte) : List Byte :=
  [BitVec.ofNat 8 (b.toNat / 100), BitVec.ofNat 8 (b.toNat / 10 % 10), BitVec.ofNat 8 (b.toNat % 10)]

end Sys2Proof.Machine
end

