-- ==== Sys2Proof/Machine/Alu.lean ====
section
/-! DEFINITION. Machine/Alu.lean: register load, arithmetic, logic, shift and random (42_alu.md). The operands are read
from the state before the instruction; VF, where it is a flag, is written last (R120). -/

namespace Sys2Proof.Machine

/-- 6XNN `LD Vx, nn` (R121). -/
def execLdImm (x : Reg) (nn : Byte) (s : State) : Result := .next (s.setReg x nn)

/-- 7XNN `ADD Vx, nn` (R122): wraps, no flag. -/
def execAddImm (x : Reg) (nn : Byte) (s : State) : Result := .next (s.setReg x (s.reg x + nn))

/-- 8XY0 `LD Vx, Vy` (R123). -/
def execLdReg (x y : Reg) (s : State) : Result := .next (s.setReg x (s.reg y))

/-- 8XY1 `OR Vx, Vy` (R124): no flag. -/
def execOrReg (x y : Reg) (s : State) : Result := .next (s.setReg x (s.reg x ||| s.reg y))

/-- 8XY2 `AND Vx, Vy` (R125): no flag. -/
def execAndReg (x y : Reg) (s : State) : Result := .next (s.setReg x (s.reg x &&& s.reg y))

/-- 8XY3 `XOR Vx, Vy` (R126): no flag. -/
def execXorReg (x y : Reg) (s : State) : Result := .next (s.setReg x (s.reg x ^^^ s.reg y))

/-- 8XY4 `ADD Vx, Vy` (R127): VF is the carry. -/
def execAddReg (x y : Reg) (s : State) : Result :=
  .next (s.setRegFlag x (s.reg x + s.reg y) (carryFlag (s.reg x) (s.reg y)))

/-- 8XY5 `SUB Vx, Vy` (R128): `V[x] - V[y]`, VF is NOT borrow. -/
def execSubReg (x y : Reg) (s : State) : Result :=
  .next (s.setRegFlag x (s.reg x - s.reg y) (notBorrowFlag (s.reg x) (s.reg y)))

/-- 8XY6 `SHR Vx` (R130): the operand is `V[x]`, `y` is ignored (R129; log 12). -/
def execShr (x _y : Reg) (s : State) : Result :=
  .next (s.setRegFlag x (s.reg x >>> 1) (droppedLowFlag (s.reg x)))

/-- 8XY7 `SUBN Vx, Vy` (R131): `V[y] - V[x]`, VF is NOT borrow. -/
def execSubnReg (x y : Reg) (s : State) : Result :=
  .next (s.setRegFlag x (s.reg y - s.reg x) (notBorrowFlag (s.reg y) (s.reg x)))

/-- 8XYE `SHL Vx` (R132): the operand is `V[x]`, `y` is ignored (R129; log 12). -/
def execShl (x _y : Reg) (s : State) : Result :=
  .next (s.setRegFlag x (s.reg x <<< 1) (droppedHighFlag (s.reg x)))

/-- The next free byte put on the `rand8` input, for the TICK that comes after this one (R133; log 1). -/
def State.nextRand8 (s : State) : State := { s with rand8 := Config.freeRand8 s.draws, draws := s.draws + 1 }

/-- CXNN `RND Vx, nn` (R133): the byte on the `rand8` input of this TICK, masked. -/
def execRnd (x : Reg) (nn : Byte) (s : State) : Result :=
  .next (s.setReg x (s.rand8 &&& nn)).nextRand8

end Sys2Proof.Machine
end

