-- ==== Sys2Proof/Machine/Control.lean ====
section
/-! DEFINITION. Machine/Control.lean: control transfer (41_control_flow.md). Each meaning is applied to a state whose PC
already holds the address of the following instruction (R84). -/

namespace Sys2Proof.Machine

/-- 00EE `RET` (R100). -/
def execRet (s : State) : Result :=
  andThen s.pop fun p => .next { p.2 with pc := p.1 }

/-- 1NNN `JP nnn` (R101). -/
def execJp (nnn : Imm12) (s : State) : Result := .next { s with pc := zext16 nnn }

/-- 2NNN `CALL nnn` (R102): PC is already the address of the instruction after the CALL. -/
def execCall (nnn : Imm12) (s : State) : Result :=
  andThen (s.push s.pc) fun t => .next { t with pc := zext16 nnn }

/-- BNNN `JP V0, nnn` (R103): the sum fits 16 bits and is not reduced to 12. -/
def execJpV0 (nnn : Imm12) (s : State) : Result :=
  .next { s with pc := zext16 (s.reg 0) + zext16 nnn }

/-- 3XNN `SE Vx, nn` (R104). -/
def execSeImm (x : Reg) (nn : Byte) (s : State) : Result := .next (s.skipIf (s.reg x == nn))

/-- 4XNN `SNE Vx, nn` (R105). -/
def execSneImm (x : Reg) (nn : Byte) (s : State) : Result := .next (s.skipIf (s.reg x != nn))

/-- 5XY0 `SE Vx, Vy` (R106). -/
def execSeReg (x y : Reg) (s : State) : Result := .next (s.skipIf (s.reg x == s.reg y))

/-- 9XY0 `SNE Vx, Vy` (R107). -/
def execSneReg (x y : Reg) (s : State) : Result := .next (s.skipIf (s.reg x != s.reg y))

end Sys2Proof.Machine
end

