-- ==== Sys2Proof/Machine/Display.lean ====
section
/-! DEFINITION. Machine/Display.lean: the display instructions (44_display.md). -/

namespace Sys2Proof.Machine

/-- 00E0 `CLS` (R160). -/
def execCls (s : State) : Result := .next { s with disp := blankDisplay }

/-- DXYN `DRW Vx, Vy, n` (R161): the `n` sprite rows at `I` drawn at (`V[x]`, `V[y]`), then VF the collision flag. With
`n = 0` no memory is read, so `I` is not checked. -/
def execDrw (x y : Reg) (n : Nat) (s : State) : Result :=
  andThen (readBlock s.mem s.base n) fun rows =>
    let g := Drawing.plotRows { disp := s.disp, hit := false } (s.reg x).toNat (s.reg y).toNat 0 rows
    .next (State.setReg { s with disp := g.disp } Reg.vf (flagByte g.hit))

end Sys2Proof.Machine
end

