-- ==== Sys2Proof/Machine/IndexMemory.lean ====
section
/-! DEFINITION. Machine/IndexMemory.lean: the index register and memory (43_index_memory.md). No access moves `I` (R140). -/

namespace Sys2Proof.Machine

/-- ANNN `LD I, nnn` (R141). -/
def execLdI (nnn : Imm12) (s : State) : Result := .next { s with i := zext16 nnn }

/-- FX1E `ADD I, Vx` (R142): wraps at 16 bits; VF is not written (log 12). -/
def execAddI (x : Reg) (s : State) : Result := .next { s with i := s.i + zext16 (s.reg x) }

/-- FX29 `LD F, Vx` (R143): the glyph of the low nibble. -/
def execLdF (x : Reg) (s : State) : Result := .next { s with i := glyphAddress (lowNibble (s.reg x)) }

/-- FX33 `LD B, Vx` (R144): the three decimal digits at `I`, `I + 1`, `I + 2`. -/
def execLdB (x : Reg) (s : State) : Result :=
  andThen (writeBlock s.mem s.base (bcdDigits (s.reg x))) fun m => .next { s with mem := m }

/-- FX55 `LD [I], Vx` (R145): `V[0]` to `V[x]` at `I` upward. -/
def execStRegs (x : Reg) (s : State) : Result :=
  andThen (writeBlock s.mem s.base (s.regsUpTo x)) fun m => .next { s with mem := m }

/-- FX65 `LD Vx, [I]` (R146): the bytes at `I` upward into `V[0]` to `V[x]`. -/
def execLdRegs (x : Reg) (s : State) : Result :=
  andThen (readBlock s.mem s.base (x.val + 1)) fun bs => .next { s with v := fillRegs s.v 0 bs }

end Sys2Proof.Machine
end

