-- ==== Sys2Proof/Machine/KeypadTimers.lean ====
section
/-! DEFINITION. Machine/KeypadTimers.lean: the key and timer instructions (45_keypad_timers.md). -/

namespace Sys2Proof.Machine

/-- EX9E `SKP Vx` (R171): the key is the low nibble of `V[x]` (R170; log 11). -/
def execSkp (x : Reg) (s : State) : Result := .next (s.skipIf (s.key (lowNibble (s.reg x))))

/-- EXA1 `SKNP Vx` (R172). -/
def execSknp (x : Reg) (s : State) : Result := .next (s.skipIf (!s.key (lowNibble (s.reg x))))

/-- FX0A `LD Vx, K` (R174): the core enters AwaitingKey; a later KEYPRESS writes `V[x]` (`keypress`). -/
def execLdVxK (x : Reg) (s : State) : Result := .next { s with wait := some x }

/-- FX07 `LD Vx, DT` (R175). -/
def execLdVxDt (x : Reg) (s : State) : Result := .next (s.setReg x s.dt)

/-- FX15 `LD DT, Vx` (R176). -/
def execLdDtVx (x : Reg) (s : State) : Result := .next { s with dt := s.reg x }

/-- FX18 `LD ST, Vx` (R177). -/
def execLdStVx (x : Reg) (s : State) : Result := .next { s with st := s.reg x }

end Sys2Proof.Machine
end

