-- ==== Sys2Proof/Machine/Cycle.lean ====
section
/-! DEFINITION. Machine/Cycle.lean: the instruction cycle (40_instruction_cycle.md): the TICK event. -/

namespace Sys2Proof.Machine

/-- Fetch and decode, in the order of R205: OutOfBoundsAccess before InvalidOpcode. -/
def State.nextInstr (s : State) : Except Fault Instr :=
  match s.fetch with
  | .error f => .error f
  | .ok w =>
    match decode w with
    | .error _ => .error .invalidOpcode
    | .ok i => .ok i

/-- `TICK` (R80): while AwaitingKey nothing (R86); else fetch, decode, advance PC by 2, execute one instruction. The
`rand8` input of the event is the byte that stands in `s.rand8` (log 1). -/
def tick (s : State) : Result :=
  match s.wait with
  | some _ => .next s
  | none => andThen s.nextInstr fun i => exec i s.advance

/-- The bytes `hi`, `lo` placed where the next TICK fetches, and the core Running. PC stays where it is if that is a
place in the program region (0x200 to 0xFFE); else it goes to 0x200, where LOAD puts a program (R242; log 6). -/
def State.placeWord (s : State) (hi lo : Byte) : State :=
  let at_ : Word := if 0x200 ≤ s.pc.toNat ∧ s.pc.toNat ≤ 0xFFE then s.pc else 0x200#16
  { s with pc := at_, wait := none, mem := (s.mem.write at_.toNat hi).write (at_.toNat + 1) lo }

end Sys2Proof.Machine
end

