-- ==== Sys2Proof/Machine/Step.lean ====
section
/-! DEFINITION. Machine/Step.lean: one step of the machine is one TICK. -/

namespace Sys2Proof.Machine

/-- One step: the event TICK (R80). The other events of the boundary are in Machine/Events.lean (log 5). -/
def step (s : State) : Host.Outcome State Fault Refusal := tick s

/-- `s` with the instruction word `w` (numbered as the opcode table numbers its bits, those above `nbits` zero) where the
next step fetches; it stands for the LOAD that puts a program in memory (log 6). -/
def State.withFetchWord (s : State) (nbits w : Nat) : State :=
  s.placeWord (hiByte (tableWord nbits w)) (loByte (tableWord nbits w))

end Sys2Proof.Machine
end

