-- ==== Sys2Proof/Machine/Events.lean ====
section
/-! DEFINITION. Machine/Events.lean: the boundary of the core (R4): RESET, LOAD, TICK, TICK_TIMERS, KEYPRESS, GET_DISPLAY
and GET_SOUND, each an atomic event, and the histories of them, finite and infinite (R5). -/

namespace Sys2Proof.Machine

/-- `RESET` (R240): every piece of the spec's state at its reset value. The model's own record of the `rand8` input is
kept: what the outside supplies after a RESET is free again (log 20). -/
def resetEvent (s : State) : State := { State.reset with rand8 := s.rand8, draws := s.draws }

/-- `LOAD(rom)` (R242, R243): the ROM copied to 0x200 upward, PC at 0x200, registers, `I`, stack depth, timers, display,
keys and key-wait cleared. Memory outside the ROM's extent is kept (R244), and so are the dead stack entries (log 15). -/
def load (rom : List Byte) (s : State) : Result :=
  if rom.length > Config.romMax then raise .romTooLarge
  else andThen (writeBlock s.mem Config.progBase rom) fun m =>
    .next { s with
      mem := m
      pc := BitVec.ofNat 16 Config.progBase
      v := Vector.replicate 16 0
      i := 0
      sp := 0
      dt := 0
      st := 0
      disp := blankDisplay
      keys := Vector.replicate 16 false
      wait := none }

/-- A timer counted down by one, stopping at 0 (R220). -/
def countDown (b : Byte) : Byte := if b.toNat > 0 then b - 1 else b

/-- `TICK_TIMERS` (R220, R221): the same in every state. -/
def tickTimers (s : State) : Result := .next { s with dt := countDown s.dt, st := countDown s.st }

/-- `KEYPRESS(key, pressed)` (R224 to R226): the key's state is recorded, and a press while AwaitingKey completes the
pending FX0A; the key code is a natural number (log 19). -/
def keypress (key : Nat) (pressed : Bool) (s : State) : Result :=
  if h : key < 16 then
    let t : State := { s with keys := s.keys.set key pressed }
    match s.wait with
    | some r => if pressed then .next { t.setReg r (BitVec.ofNat 8 key) with wait := none } else .next t
    | none => .next t
  else raise .invalidKeyCode

/-- `GET_DISPLAY` (R228): the 2048 pixels, row-major. -/
def getDisplay (s : State) : List Bool := s.disp.rowMajor

/-- `GET_SOUND` (R229): the sound timer. -/
def getSound (s : State) : Byte := s.st

/-- The tone output: on exactly when `ST` is not 0 (R229). -/
def tone (s : State) : Bool := s.st != 0

/-- The events of the boundary (R4). -/
inductive Event where
  /-- `RESET` (R240) -/
  | reset
  /-- `LOAD(rom)` (R242) -/
  | load (rom : List Byte)
  /-- `TICK(rand8)` (R80) -/
  | tick (rand8 : Byte)
  /-- `TICK_TIMERS` (R220) -/
  | tickTimers
  /-- `KEYPRESS(key, pressed)` (R224) -/
  | keypress (key : Nat) (pressed : Bool)
  /-- `GET_DISPLAY` (R228) -/
  | getDisplay
  /-- `GET_SOUND` (R229) -/
  | getSound
deriving DecidableEq, Repr

/-- What an event returns to the host (R4). -/
inductive Response where
  /-- RESET returns nothing -/
  | nothing
  /-- the event completed -/
  | ok
  /-- the event found a fault and changed nothing (R203) -/
  | fault (f : Fault)
  /-- the model has no answer (no event of this model ends so) -/
  | refused (r : Refusal)
  /-- what GET_DISPLAY returns -/
  | pixels (grid : List Bool)
  /-- what GET_SOUND returns: `ST`, and the tone signal -/
  | sound (st : Byte) (tone : Bool)
deriving DecidableEq, Repr

/-- The code of a fault on a hardware result port (R201: the spec's own numbering). -/
def Fault.code : Fault → BitVec 3
  | .romTooLarge => 1
  | .invalidOpcode => 2
  | .stackOverflow => 3
  | .stackUnderflow => 4
  | .outOfBoundsAccess => 5
  | .invalidKeyCode => 6

/-- The state after an event that answered `o` in state `s`, and what it returned: an event that does not complete
leaves the state as it was (R4, R203). -/
def commit (s : State) (o : Result) : State × Response :=
  match o with
  | .next t => (t, .ok)
  | .fault f => (s, .fault f)
  | .refused r => (s, .refused r)

/-- One event: the state after it and what it returns (R4). TICK takes its `rand8` input from the host. -/
def deliver (e : Event) (s : State) : State × Response :=
  match e with
  | .reset => (resetEvent s, .nothing)
  | .load rom => commit s (load rom s)
  | .tick r => commit s (tick { s with rand8 := r })
  | .tickTimers => commit s (tickTimers s)
  | .keypress key pressed => commit s (keypress key pressed s)
  | .getDisplay => (s, .pixels (getDisplay s))
  | .getSound => (s, .sound (getSound s) (tone s))

/-- A finite history: events in the order the host chose (R5), the state after them and what each returned. -/
def deliverAll : List Event → State → State × List Response
  | [], s => (s, [])
  | e :: es, s =>
    let p := deliver e s
    let q := deliverAll es p.1
    (q.1, p.2 :: q.2)

/-- An infinite history (R5): event number `n`, for every `n`. It is chosen by the host and is no part of the state. -/
abbrev History := Nat → Event

/-- The state before event number `n` of an infinite history that starts in `s` (R5). -/
def stateAt (h : History) (s : State) : Nat → State
  | 0 => s
  | n + 1 => (deliver (h n) (stateAt h s n)).1

/-- What event number `n` of an infinite history returns (R4, R5). -/
def responseAt (h : History) (s : State) (n : Nat) : Response := (deliver (h n) (stateAt h s n)).2

end Sys2Proof.Machine
end

