-- ==== Sys2Proof/Safety.lean ====
section
/-! DEFINITION. Safety.lean: the terms in which claims speak of a run: the invariant of the states a run reaches, the
end of a run, and the fairness premises that a claim about an infinite history may need. -/

namespace Sys2Proof.Machine

/-- What holds in every state a history reaches: memory is in its canonical form; PC is at most 0x10FE (R16); every live
stack entry is the address after some CALL, 0x0002 to 0x1000 (R16, R100). -/
structure State.Inv (s : State) : Prop where
  mem_wf : s.mem.wf
  pc_le : s.pc.toNat ≤ 0x10FE
  live : ∀ k : Fin 16, k.val < s.sp.val → 2 ≤ s.stack[k.val].toNat ∧ s.stack[k.val].toNat ≤ 0x1000

/-- A fairness premise (R5): in the infinite history `h`, events with `p` never cease to come. None is built into the
machine; a claim that needs one states it (the spec's decision D2). -/
def InfinitelyOften (p : Event → Prop) (h : History) : Prop := ∀ n, ∃ m, n ≤ m ∧ p (h m)

/-- An event is the press of an existing key, which ends a key-wait (R225). -/
def Event.IsPress (e : Event) : Prop := ∃ key, key ≤ 15 ∧ e = .keypress key true

/-- In state `s` the event `e` is a TICK that executes FX15, the one instruction that sets `DT` (R18). -/
def Event.SetsDelay (e : Event) (s : State) : Prop :=
  ∃ b x, e = .tick b ∧ s.wait = none ∧ s.nextInstr = .ok (.ldDtVx x)

/-- The end of a run (R88): Running, and the word at PC jumps to PC itself. -/
def State.Ended (s : State) : Prop :=
  s.wait = none ∧ ∃ nnn : Imm12, s.nextInstr = .ok (.jp nnn) ∧ nnn.toNat = s.pc.toNat

/-- A step that keeps a run safe: it answers a next state; a fault is a failed run (R88, R204). -/
def State.Steps (s : State) : Prop := ∃ t, step s = .next t

end Sys2Proof.Machine
end

