-- ==== Sys2Proof/Certificates/Slice0/Obligations.lean ====
section
/-! DEFINITION. Certificates/Slice0/Obligations.lean: the statements for the provers. Each is about every state, those no
run reaches included, and names in its docstring the rule or the section of the spec it formalises, and the decision of
the spec or the log entry it rests on where there is one. A next state written as a record update of `s` is the frame:
every field that is not named in the update is as it was. -/

open Sys2Proof Sys2Proof.Machine

/-! ### Encoding (30_encoding.md) -/

/-- R61, R62, R64: no operand bit of an encoding is dropped. The 34 rows and the strict reading of fixed digits are the
spec's decision D23 (log 22); which 8XYn is which operation is its inference R63 (log 9). -/
def Obligations.DecodeOfEncodeIsTheInstruction : Prop :=
  ∀ i : Instr, i.WellFormed = true → decode (encode i) = .ok i

/-- R62, R66: every word that decodes is the word of one well-formed instruction, so a word has one meaning. -/
def Obligations.EncodeOfDecodeIsTheWord : Prop :=
  ∀ (w : Word) (i : Instr), decode w = .ok i → i.WellFormed = true ∧ encode i = w

/-- R62: a word is the instruction of a row exactly when `w & mask = match`, and no two of the 34 rows take one word. Which
of the nine 8XYn rows is which operation is the spec's inference R63 (log 9, DEDUCED); that the rows are 34 is its choice
in conflict C1 (log 22). -/
def Obligations.WordDecodesExactlyByItsOpcodeRow : Prop :=
  opcodeTable.length = 34 ∧
  (∀ (w : Word) (i : Instr), decode w = .ok i → i.pattern ∈ opcodeTable ∧ i.pattern.holds w = true) ∧
  (∀ (w : Word), ∀ p ∈ opcodeTable, p.holds w = true → ∃ i, decode w = .ok i ∧ i.pattern = p)

/-- R65: the invalid words are exactly those of its table (strict decode is the spec's decision D23, log 22; which digits of
8XYn are left over is its inference R63, log 9, DEDUCED). -/
def Obligations.InvalidWordsAreThoseOfTheTable : Prop :=
  ∀ w : Word, (∃ e, decode w = .error e) ↔
    (w.toNat / 0x1000 = 0x0 ∧ w.toNat ≠ 0x00E0 ∧ w.toNat ≠ 0x00EE) ∨
    (w.toNat / 0x1000 = 0x5 ∧ w.toNat % 16 ≠ 0) ∨
    (w.toNat / 0x1000 = 0x8 ∧ w.toNat % 16 ∈ [0x8, 0x9, 0xA, 0xB, 0xC, 0xD, 0xF]) ∨
    (w.toNat / 0x1000 = 0x9 ∧ w.toNat % 16 ≠ 0) ∨
    (w.toNat / 0x1000 = 0xE ∧ w.toNat % 256 ∉ [0x9E, 0xA1]) ∨
    (w.toNat / 0x1000 = 0xF ∧ w.toNat % 256 ∉ [0x07, 0x0A, 0x15, 0x18, 0x1E, 0x29, 0x33, 0x55, 0x65])

/-- R62: for each family a word written out from its pattern decodes to the instruction it stands for. That 0x8127 is SUBN
is the spec's inference R63 (log 9, DEDUCED). -/
def Obligations.FamilyWordsDecodeAsWritten : Prop :=
  decode 0b0010101010111100#16 = .ok (.call 0xABC) ∧ decode 0b0011001100101010#16 = .ok (.seImm 3 0x2A) ∧
  decode 0b1000000100100111#16 = .ok (.subnReg 1 2) ∧ decode 0b1111001001100101#16 = .ok (.ldRegs 2) ∧
  decode 0b1101000100100010#16 = .ok (.drw 1 2 2) ∧ decode 0b1111000100001010#16 = .ok (.ldVxK 1)

/-! ### The instruction cycle (40_instruction_cycle.md) -/

/-- R80, in the order of its checks (R205): while AwaitingKey nothing happens (R86); a fetch out of range (R82) and then an
invalid word (R83) fault; else `exec` of the decoded instruction runs on the state with PC moved past it. The event
TICK(rand8) is the step with `rand8` on the input; it commits the next state, or returns the fault with the state as it was.
That one step is one TICK (log 5) and that TICK puts its byte in the field `rand8` of State first (log 1) are the model's
own, DESIGN CHOICE; that a waiting TICK does nothing even where a fetch would fault is the spec's decision D26 (log 19). -/
def Obligations.StepRunsTheDecodedInstruction : Prop :=
  ∀ s : State,
    (∀ r, s.wait = some r → step s = .next s) ∧
    (s.wait = none → 4096 < s.pc.toNat + 2 → step s = .fault .outOfBoundsAccess) ∧
    (∀ e, s.wait = none → s.pc.toNat + 2 ≤ 4096 →
      decode (s.mem.read s.pc.toNat ++ s.mem.read (s.pc.toNat + 1)) = .error e → step s = .fault .invalidOpcode) ∧
    (∀ i, s.wait = none → s.pc.toNat + 2 ≤ 4096 →
      decode (s.mem.read s.pc.toNat ++ s.mem.read (s.pc.toNat + 1)) = .ok i →
      step s = exec i { s with pc := s.pc + 2 }) ∧
    (∀ b t, step { s with rand8 := b } = .next t → deliver (.tick b) s = (t, .ok)) ∧
    (∀ b f, step { s with rand8 := b } = .fault f → deliver (.tick b) s = (s, .fault f))

/-- What R15 says PC is after an instruction fetched from `a`, in the state `s` before it. -/
def Sys2Proof.Claims.pcAfter (s : State) (a : Nat) : Instr → Nat
  | .jp nnn | .call nnn => nnn.toNat
  | .jpV0 nnn => (s.reg 0).toNat + nnn.toNat
  | .ret => if h : s.sp.val = 0 then a else (s.stack[s.sp.val - 1]'(by omega)).toNat
  | .seImm x nn => if s.reg x = nn then a + 4 else a + 2
  | .sneImm x nn => if s.reg x = nn then a + 2 else a + 4
  | .seReg x y => if s.reg x = s.reg y then a + 4 else a + 2
  | .sneReg x y => if s.reg x = s.reg y then a + 2 else a + 4
  | .skp x => if s.key (lowNibble (s.reg x)) = true then a + 4 else a + 2
  | .sknp x => if s.key (lowNibble (s.reg x)) = true then a + 2 else a + 4
  | .cls | .ldImm _ _ | .addImm _ _ | .ldReg _ _ | .orReg _ _ | .andReg _ _ | .xorReg _ _ | .addReg _ _
  | .subReg _ _ | .shr _ _ | .subnReg _ _ | .shl _ _ | .ldI _ | .rnd _ _ | .drw _ _ _ | .ldVxDt _ | .ldVxK _
  | .ldDtVx _ | .ldStVx _ | .addI _ | .ldF _ | .ldB _ | .stRegs _ | .ldRegs _ => a + 2

open Sys2Proof.Claims

/-- R15: where every instruction leaves PC when its TICK completes (no sum is reduced), that a TICK which faults leaves
it, and that no TICK moves it while a key is awaited. The key of a key skip is the spec's decision D17 (log 11). -/
def Obligations.EveryInstructionLeavesPcAsListed : Prop :=
  (∀ (s t : State) (i : Instr), s.wait = none → s.nextInstr = .ok i → step s = .next t →
    t.pc.toNat = pcAfter s s.pc.toNat i) ∧
  (∀ (s t : State) (b : Byte) (f : Fault), deliver (.tick b) s = (t, .fault f) → t.pc = s.pc) ∧
  (∀ (s t : State) (b : Byte) (r : Reg) (q : Response), s.wait = some r → deliver (.tick b) s = (t, q) → t.pc = s.pc)

/-- R87: the `rand8` input (the spec's decision D16, log 1) matters only when the instruction executed is CXNN. -/
def Obligations.Rand8MattersOnlyForRnd : Prop :=
  ∀ (s : State) (b c : Byte), (∀ x nn, s.wait = none → s.nextInstr ≠ .ok (.rnd x nn)) →
    (deliver (.tick b) s).2 = (deliver (.tick c) s).2 ∧
    { (deliver (.tick b) s).1 with rand8 := c } = { (deliver (.tick c) s).1 with rand8 := c }

/-- R88 (the convention is the spec's decision D28): at a jump to itself a TICK changes nothing, and TICK_TIMERS and
KEYPRESS leave the core there. -/
def Obligations.EndedRunStaysEnded : Prop :=
  ∀ s : State, s.Ended →
    step s = .next s ∧
    (∀ t, tickTimers s = .next t → t.Ended ∧ t = { s with dt := t.dt, st := t.st }) ∧
    (∀ key pressed t, keypress key pressed s = .next t → t.Ended ∧ t = { s with keys := t.keys })

/-! ### Control transfer (41_control_flow.md) -/

/-- R101, R103: the target is the immediate, or V0 plus the immediate, never reduced and never checked. -/
def Obligations.JumpsSetPcToTheTarget : Prop :=
  ∀ (nnn : Imm12) (s : State),
    decode (0x1#4 ++ nnn) = .ok (.jp nnn) ∧ decode (0xB#4 ++ nnn) = .ok (.jpV0 nnn) ∧
    (∃ p : Word, exec (.jp nnn) s = .next { s with pc := p } ∧ p.toNat = nnn.toNat) ∧
    (∃ p : Word, exec (.jpV0 nnn) s = .next { s with pc := p } ∧ p.toNat = (s.reg 0).toNat + nnn.toNat)

/-- R102: CALL pushes PC (already past the CALL) and jumps; on a full stack it faults, and its TICK changes nothing. -/
def Obligations.CallPushesPcAndJumps : Prop :=
  ∀ (nnn : Imm12) (s : State),
    decode (0x2#4 ++ nnn) = .ok (.call nnn) ∧
    (s.sp.val < 16 → ∃ (stack : Vector Word 16) (sp : Fin 17) (p : Word),
      exec (.call nnn) s = .next { s with stack := stack, sp := sp, pc := p } ∧
      (∀ k : Fin 16, stack[k.val] = if k.val = s.sp.val then s.pc else s.stack[k.val]) ∧
      sp.val = s.sp.val + 1 ∧ p.toNat = nnn.toNat) ∧
    (s.sp.val = 16 → exec (.call nnn) s = .fault .stackOverflow ∧
      ∀ b : Byte, s.wait = none → s.nextInstr = .ok (.call nnn) → deliver (.tick b) s = (s, .fault .stackOverflow))

/-- R100: RET pops PC, and the popped entry stays where it was; on an empty stack it faults, and its TICK changes
nothing. -/
def Obligations.RetPopsPc : Prop :=
  ∀ s : State,
    decode 0x00EE#16 = .ok .ret ∧
    (∀ k : Fin 16, s.sp.val = k.val + 1 →
      exec .ret s = .next { s with sp := k.castSucc, pc := s.stack[k.val] }) ∧
    (s.sp.val = 0 → exec .ret s = .fault .stackUnderflow ∧
      ∀ b : Byte, s.wait = none → s.nextInstr = .ok .ret → deliver (.tick b) s = (s, .fault .stackUnderflow))

/-- R102 with R100 (SC8's law E5): a CALL to a RET comes back to the instruction after the CALL at every depth that is
not full, and leaves only the dead stack entry changed. -/
def Obligations.CallThenRetComesBack : Prop :=
  ∀ (s : State) (nnn : Imm12), s.wait = none → s.sp.val < 16 → s.nextInstr = .ok (.call nnn) →
    nnn.toNat + 2 ≤ 4096 → s.mem.read nnn.toNat = 0x00 → s.mem.read (nnn.toNat + 1) = 0xEE →
    ∃ (t : State) (stack : Vector Word 16), step s = .next t ∧
      step t = .next { s with pc := s.pc + 2, stack := stack } ∧
      ∀ k : Fin 16, k.val ≠ s.sp.val → stack[k.val] = s.stack[k.val]

/-- R104 to R107: the four register skips move PC on by 2 exactly when their condition holds. -/
def Obligations.SkipsMovePcOnTheirCondition : Prop :=
  ∀ (x y : Reg) (nn : Byte) (s : State),
    decode (formatXK 0x3 x nn) = .ok (.seImm x nn) ∧ decode (formatXK 0x4 x nn) = .ok (.sneImm x nn) ∧
    decode (formatXYN 0x5 x y 0) = .ok (.seReg x y) ∧ decode (formatXYN 0x9 x y 0) = .ok (.sneReg x y) ∧
    exec (.seImm x nn) s = .next { s with pc := if s.reg x = nn then s.pc + 2 else s.pc } ∧
    exec (.sneImm x nn) s = .next { s with pc := if s.reg x ≠ nn then s.pc + 2 else s.pc } ∧
    exec (.seReg x y) s = .next { s with pc := if s.reg x = s.reg y then s.pc + 2 else s.pc } ∧
    exec (.sneReg x y) s = .next { s with pc := if s.reg x ≠ s.reg y then s.pc + 2 else s.pc }

/-! ### Registers: load, arithmetic, logic, shift, random (42_alu.md) -/

/-- R121, R122: the destination gets the value, modulo 256, and no other register changes, VF included. -/
def Obligations.LoadsAndImmediateAddWriteOneRegister : Prop :=
  ∀ (x : Reg) (nn : Byte) (s : State),
    decode (formatXK 0x6 x nn) = .ok (.ldImm x nn) ∧ decode (formatXK 0x7 x nn) = .ok (.addImm x nn) ∧
    (∃ v, exec (.ldImm x nn) s = .next { s with v := v } ∧ v[x.val] = nn ∧
      ∀ q : Reg, q ≠ x → v[q.val] = s.reg q) ∧
    (∃ v, exec (.addImm x nn) s = .next { s with v := v } ∧
      (v[x.val]).toNat = ((s.reg x).toNat + nn.toNat) % 256 ∧ ∀ q : Reg, q ≠ x → v[q.val] = s.reg q)

/-- R123: the copy; that 8XY0 is this instruction is the spec's inference R63 (log 9). -/
def Obligations.CopyWritesOneRegister : Prop :=
  ∀ (x y : Reg) (s : State),
    decode (formatXYN 0x8 x y 0) = .ok (.ldReg x y) ∧
    ∃ v, exec (.ldReg x y) s = .next { s with v := v } ∧ v[x.val] = s.reg y ∧
      ∀ q : Reg, q ≠ x → v[q.val] = s.reg q

/-- R124, R125, R126: bit by bit, and VF is no flag here (the spec's decision D13, log 18). -/
def Obligations.LogicWorksBitwiseAndLeavesVf : Prop :=
  ∀ (x y : Reg) (s : State),
    (∃ v, exec (.orReg x y) s = .next { s with v := v } ∧ (∀ q : Reg, q ≠ x → v[q.val] = s.reg q) ∧
      ∀ k, v[x.val].getLsbD k = ((s.reg x).getLsbD k || (s.reg y).getLsbD k)) ∧
    (∃ v, exec (.andReg x y) s = .next { s with v := v } ∧ (∀ q : Reg, q ≠ x → v[q.val] = s.reg q) ∧
      ∀ k, v[x.val].getLsbD k = ((s.reg x).getLsbD k && (s.reg y).getLsbD k)) ∧
    (∃ v, exec (.xorReg x y) s = .next { s with v := v } ∧ (∀ q : Reg, q ≠ x → v[q.val] = s.reg q) ∧
      ∀ k, v[x.val].getLsbD k = ((s.reg x).getLsbD k ^^ (s.reg y).getLsbD k))

/-- R127, R128, R131 with R120: the exact sum or difference modulo 256, VF the carry or NOT borrow of the OLD operands. VF
is written last, so with `x = 15` the result is lost: the spec's decision D12 (log 10). -/
def Obligations.AddAndSubtractWriteResultThenFlag : Prop :=
  ∀ (x y : Reg) (s : State),
    (∃ v, exec (.addReg x y) s = .next { s with v := v } ∧
      (v[15]).toNat = (if (s.reg x).toNat + (s.reg y).toNat > 255 then 1 else 0) ∧
      (x ≠ 15 → (v[x.val]).toNat = ((s.reg x).toNat + (s.reg y).toNat) % 256) ∧
      ∀ q : Reg, q ≠ 15 → q ≠ x → v[q.val] = s.reg q) ∧
    (∃ v, exec (.subReg x y) s = .next { s with v := v } ∧
      (v[15]).toNat = (if (s.reg x).toNat ≥ (s.reg y).toNat then 1 else 0) ∧
      (x ≠ 15 → (v[x.val]).toNat = ((s.reg x).toNat + 256 - (s.reg y).toNat) % 256) ∧
      ∀ q : Reg, q ≠ 15 → q ≠ x → v[q.val] = s.reg q) ∧
    (∃ v, exec (.subnReg x y) s = .next { s with v := v } ∧
      (v[15]).toNat = (if (s.reg y).toNat ≥ (s.reg x).toNat then 1 else 0) ∧
      (x ≠ 15 → (v[x.val]).toNat = ((s.reg y).toNat + 256 - (s.reg x).toNat) % 256) ∧
      ∀ q : Reg, q ≠ 15 → q ≠ x → v[q.val] = s.reg q)

/-- R129, R130, R132: the shifts take `V[x]` (the `y` digit changes nothing), fill with zero, and put the dropped bit in VF.
The operand is the spec's decision D14 (log 12), the order with `x = 15` its decision D12 (log 10). -/
def Obligations.ShiftsMoveOneBitOfVxIntoVf : Prop :=
  ∀ (x y : Reg) (s : State),
    (∃ v, exec (.shr x y) s = .next { s with v := v } ∧
      (v[15]).toNat = (s.reg x).toNat % 2 ∧ (x ≠ 15 → (v[x.val]).toNat = (s.reg x).toNat / 2) ∧
      ∀ q : Reg, q ≠ 15 → q ≠ x → v[q.val] = s.reg q) ∧
    (∃ v, exec (.shl x y) s = .next { s with v := v } ∧
      (v[15]).toNat = (s.reg x).toNat / 128 ∧ (x ≠ 15 → (v[x.val]).toNat = (s.reg x).toNat * 2 % 256) ∧
      ∀ q : Reg, q ≠ 15 → q ≠ x → v[q.val] = s.reg q)

/-- R133: CXNN stores the input byte of its TICK masked, whatever the byte is; nothing is assumed of the byte that stands
on the input afterwards (the input is the spec's decision D16; its form here is the model's, log 1). -/
def Obligations.RndStoresTheMaskedInputByte : Prop :=
  (∀ (x : Reg) (nn : Byte) (s : State), ∃ v b, exec (.rnd x nn) s = .next { s with v := v, rand8 := b, draws := s.draws + 1 } ∧
    v[x.val] = s.rand8 &&& nn ∧ ∀ q : Reg, q ≠ x → v[q.val] = s.reg q) ∧
  (∀ (x : Reg) (nn b : Byte) (s : State), s.wait = none → s.nextInstr = .ok (.rnd x nn) →
    ∃ t, deliver (.tick b) s = (t, .ok) ∧ t.pc = s.pc + 2 ∧ t.reg x = b &&& nn ∧
      ∀ k, (t.reg x).getLsbD k = true → nn.getLsbD k = true)

/-! ### The index register and memory (43_index_memory.md) -/

/-- R141: `I` is the immediate, its upper 4 bits 0. -/
def Obligations.LoadIndexSetsTheImmediate : Prop :=
  ∀ (nnn : Imm12) (s : State), decode (0xA#4 ++ nnn) = .ok (.ldI nnn) ∧
    ∃ a : Word, exec (.ldI nnn) s = .next { s with i := a } ∧ a.toNat = nnn.toNat

/-- R142, R143: FX1E wraps at 16 bits and writes no flag (decision D14, log 12); FX29 gives the glyph's address for every
place the font may have (decision D7, log 2) and five bytes a glyph (decision D8, log 3). -/
def Obligations.AddIndexWrapsAndGlyphAddressIsLinear : Prop :=
  ∀ (x : Reg) (s : State),
    (∃ a : Word, exec (.addI x) s = .next { s with i := a } ∧
      a.toNat = (s.i.toNat + (s.reg x).toNat) % 65536) ∧
    (∃ a : Word, exec (.ldF x) s = .next { s with i := a } ∧
      a.toNat = Config.fontBase.val + 5 * ((s.reg x).toNat % 16) ∧ a.toNat + 5 ≤ 0x200)

/-- R144: FX33 stores the three decimal digits at `I`, `I + 1`, `I + 2` and nothing else; out of range it faults (the
range check is the spec's decision D21, log 17). -/
def Obligations.BcdStoresThreeDigits : Prop :=
  ∀ (x : Reg) (s : State),
    (s.base + 3 ≤ 4096 → ∃ m, exec (.ldB x) s = .next { s with mem := m } ∧
      (m.read s.base).toNat = (s.reg x).toNat / 100 ∧
      (m.read (s.base + 1)).toNat = (s.reg x).toNat / 10 % 10 ∧
      (m.read (s.base + 2)).toNat = (s.reg x).toNat % 10 ∧
      ∀ a, a < s.base ∨ s.base + 3 ≤ a → m.read a = s.mem.read a) ∧
    (4096 < s.base + 3 → exec (.ldB x) s = .fault .outOfBoundsAccess)

/-- R145: FX55 stores `V[0]` to `V[x]` from `I` upward and nothing else, and leaves `I` (decision D15, log 18); out of range
it faults, so nothing is stored. -/
def Obligations.BlockStoreWritesRegistersUpToX : Prop :=
  ∀ (x : Reg) (s : State),
    (s.base + x.val + 1 ≤ 4096 → ∃ m, exec (.stRegs x) s = .next { s with mem := m } ∧
      (∀ k : Reg, k ≤ x → m.read (s.base + k.val) = s.reg k) ∧
      ∀ a, a < s.base ∨ s.base + x.val + 1 ≤ a → m.read a = s.mem.read a) ∧
    (4096 < s.base + x.val + 1 → exec (.stRegs x) s = .fault .outOfBoundsAccess)

/-- R146: FX65 loads `V[0]` to `V[x]` from `I` upward, leaves the registers above `x`, memory and `I` (decision D15, log 18);
out of range it faults. -/
def Obligations.BlockLoadReadsRegistersUpToX : Prop :=
  ∀ (x : Reg) (s : State),
    (s.base + x.val + 1 ≤ 4096 → ∃ v, exec (.ldRegs x) s = .next { s with v := v } ∧
      ∀ q : Reg, v[q.val] = if q ≤ x then s.mem.read (s.base + q.val) else s.reg q) ∧
    (4096 < s.base + x.val + 1 → exec (.ldRegs x) s = .fault .outOfBoundsAccess)

/-- R147: what FX55 stored, FX65 with the same `x` and `I` brings back, whatever happened to the registers in between. -/
def Obligations.StoreThenLoadBringsRegistersBack : Prop :=
  ∀ (x : Reg) (s : State) (v : Vector Byte 16), s.base + x.val < 4096 →
    ∃ t u, exec (.stRegs x) s = .next t ∧ exec (.ldRegs x) { t with v := v } = .next u ∧
      (∀ k : Reg, k ≤ x → u.reg k = s.reg k) ∧ ∀ k : Reg, x < k → u.reg k = v[k.val]

/-- R49 (and R47): the bytes a step stores are what the next step fetches, even over the instruction that follows. -/
def Obligations.StoredBytesAreFetchedNext : Prop :=
  ∀ (s : State) (x : Reg) (i : Instr), s.wait = none → s.nextInstr = .ok (.stRegs x) → 1 ≤ x.val →
    s.i = s.pc + 2 → s.base + x.val < 4096 → decode (s.reg 0 ++ s.reg 1) = .ok i →
    ∃ t, step s = .next t ∧ step t = exec i { t with pc := s.pc + 4 }

/-! ### The display (44_display.md) -/

/-- R160: CLS turns every pixel off and changes nothing else; the read-out is then 2048 zeros. -/
def Obligations.ClsTurnsEveryPixelOff : Prop :=
  ∀ s : State, decode 0x00E0#16 = .ok .cls ∧
    ∃ d : Display, exec .cls s = .next { s with disp := d } ∧ (∀ px py, d.pixel px py = false) ∧
      getDisplay { s with disp := d } = List.replicate 2048 false

/-- R161, R162: DXYN inverts exactly the pixels a 1 bit of its `n` rows lands on, every coordinate reduced (decision D10, log
17), bit 7 leftmost (decision D9, log 8), and VF is 1 exactly when some pixel went from on to off; out of range it faults,
but not with `n = 0`, whatever `I` is (decision D11, log 17). -/
def Obligations.DrawInvertsSpritePixelsAndFlagsCollision : Prop :=
  ∀ (x y : Reg) (n : Nat) (s : State), n < 16 →
    (n = 0 ∨ s.base + n ≤ 4096 → ∃ (v : Vector Byte 16) (d : Display),
      exec (.drw x y n) s = .next { s with v := v, disp := d } ∧
      (∀ px py, d.pixel px py ≠ s.disp.pixel px py ↔
        ∃ r < n, ∃ c < 8, (s.mem.read (s.base + r)).getLsbD (7 - c) = true ∧
          px.val = ((s.reg x).toNat + c) % 64 ∧ py.val = ((s.reg y).toNat + r) % 32) ∧
      (∀ q : Reg, q ≠ 15 → v[q.val] = s.reg q) ∧
      ((∃ px py, s.disp.pixel px py = true ∧ d.pixel px py = false) → v[15] = 1) ∧
      ((¬∃ px py, s.disp.pixel px py = true ∧ d.pixel px py = false) → v[15] = 0)) ∧
    (0 < n → 4096 < s.base + n → exec (.drw x y n) s = .fault .outOfBoundsAccess)

/-- R163: the same draw twice, with neither coordinate in VF, restores the display; and if it drew anything, one of the two
flags a collision. -/
def Obligations.DoubleDrawRestoresTheDisplay : Prop :=
  ∀ (x y : Reg) (n : Nat) (s : State), n < 16 → x ≠ 15 → y ≠ 15 → (n = 0 ∨ s.base + n ≤ 4096) →
    ∃ t u, exec (.drw x y n) s = .next t ∧ exec (.drw x y n) t = .next u ∧ u.disp = s.disp ∧
      (t.disp ≠ s.disp → t.reg 15 = 1 ∨ u.reg 15 = 1)

/-- R228: the read-out is row-major, element `64*y + x` the pixel at column `x` of row `y`, and it has no side effect. -/
def Obligations.ReadOutIsRowMajor : Prop :=
  ∀ s : State, deliver .getDisplay s = (s, .pixels (getDisplay s)) ∧ (getDisplay s).length = 2048 ∧
    ∀ (px : Fin 64) (py : Fin 32), (getDisplay s)[64 * py.val + px.val]? = some (s.disp.pixel px py)

/-! ### Keys and timers (45_keypad_timers.md, 60_exceptions.md) -/

/-- R170 to R172: the key skips test the key that the low nibble of `V[x]` names (decision D17, log 11). -/
def Obligations.KeySkipsTestTheLowNibblesKey : Prop :=
  ∀ (x : Reg) (k : Fin 16) (s : State), k.val = (s.reg x).toNat % 16 →
    exec (.skp x) s = .next { s with pc := if s.keys[k.val] = true then s.pc + 2 else s.pc } ∧
    exec (.sknp x) s = .next { s with pc := if s.keys[k.val] = false then s.pc + 2 else s.pc }

/-- R174, R86, R225 (SC8's law E8): FX0A only enters AwaitingKey; then any number of TICKs change nothing (but the model's
own field `rand8`, log 1); a release keeps waiting; the press of a key writes its code into `V[x]` and the core runs on
(decisions D26, D27, log 19). -/
def Obligations.KeyWaitHoldsUntilAPress : Prop :=
  ∀ (x : Reg) (s : State),
    exec (.ldVxK x) s = .next { s with wait := some x } ∧
    (s.wait = some x →
      (∀ bs : List Byte, ∃ b, (deliverAll (bs.map Event.tick) s).1 = { s with rand8 := b }) ∧
      ∀ key : Fin 16,
        (∃ keys, deliver (.keypress key.val false) s = ({ s with keys := keys }, .ok) ∧
          ∀ k : Fin 16, keys[k.val] = if k = key then false else s.keys[k.val]) ∧
        ∃ v keys, deliver (.keypress key.val true) s = ({ s with v := v, keys := keys, wait := none }, .ok) ∧
          (v[x.val]).toNat = key.val ∧ (∀ q : Reg, q ≠ x → v[q.val] = s.reg q) ∧
          ∀ k : Fin 16, keys[k.val] = if k = key then true else s.keys[k.val])

/-- R175, R176, R177: the three timer moves; the tone is on exactly when `ST` is not 0. -/
def Obligations.TimerMovesCopyOneByte : Prop :=
  ∀ (x : Reg) (s : State),
    decode (formatXK 0xF x 0x07) = .ok (.ldVxDt x) ∧ decode (formatXK 0xF x 0x15) = .ok (.ldDtVx x) ∧
    decode (formatXK 0xF x 0x18) = .ok (.ldStVx x) ∧
    (∃ v, exec (.ldVxDt x) s = .next { s with v := v } ∧ v[x.val] = s.dt ∧ ∀ q : Reg, q ≠ x → v[q.val] = s.reg q) ∧
    exec (.ldDtVx x) s = .next { s with dt := s.reg x } ∧
    exec (.ldStVx x) s = .next { s with st := s.reg x } ∧
    (∀ t, exec (.ldStVx x) s = .next t → (tone t = true ↔ s.reg x ≠ 0))

/-- R220 (SC8's law E7): TICK_TIMERS counts both timers down by one, not below 0, and writes nothing else; `k` of them take
`k` off, not below 0. -/
def Obligations.TimersCountDownToZero : Prop :=
  ∀ (s : State) (k : Nat),
    (∃ d e : Byte, deliver .tickTimers s = ({ s with dt := d, st := e }, .ok) ∧
      d.toNat = s.dt.toNat - 1 ∧ e.toNat = s.st.toNat - 1) ∧
    ∃ d e : Byte, (deliverAll (List.replicate k .tickTimers) s).1 = { s with dt := d, st := e } ∧
      d.toNat = s.dt.toNat - k ∧ e.toNat = s.st.toNat - k

/-- R229: the read-out of the sound timer, the tone on exactly when it is not 0, no side effect. -/
def Obligations.SoundReadOutShowsTheTimer : Prop :=
  ∀ s : State, ∃ on, deliver .getSound s = (s, .sound s.st on) ∧ (on = true ↔ s.st.toNat ≠ 0)

/-- R224, with R226: KEYPRESS records the key, completes a pending FX0A on a press, and faults for a key above 15 (the key
code is a natural number: decision D29; which press completes it: decision D27; log 19). -/
def Obligations.KeypressRecordsTheKey : Prop :=
  ∀ (s : State) (pressed : Bool),
    (∀ key : Fin 16, ∃ keys : Vector Bool 16,
      (∀ k : Fin 16, keys[k.val] = if k = key then pressed else s.keys[k.val]) ∧
      (pressed = false ∨ s.wait = none → deliver (.keypress key.val pressed) s = ({ s with keys := keys }, .ok)) ∧
      ∀ r, pressed = true → s.wait = some r →
        ∃ v, deliver (.keypress key.val pressed) s = ({ s with v := v, keys := keys, wait := none }, .ok) ∧
          ∀ q : Reg, (v[q.val]).toNat = if q = r then key.val else (s.reg q).toNat) ∧
    ∀ key : Nat, 15 < key → deliver (.keypress key pressed) s = (s, .fault .invalidKeyCode)

/-! ### Reset and load (70_reset_and_hazards.md) -/

/-- R25, R240: every piece of the spec's state after RESET, in every state it is issued in: all zero (PC included: decision
D4, log 14), no key-wait, and memory 0 but for the font, wherever it is (decisions D7, D8; logs 2, 3). The model's own
record of the `rand8` input is kept (log 20). -/
def Obligations.ResetZeroesAllButTheFont : Prop :=
  ∀ s : State, deliver .reset s = ({ State.reset with rand8 := s.rand8, draws := s.draws }, .nothing) ∧
    (∀ q, State.reset.reg q = 0) ∧ State.reset.i = 0 ∧ State.reset.pc = 0 ∧ State.reset.sp.val = 0 ∧
    (∀ k : Fin 16, State.reset.stack[k.val] = 0) ∧ State.reset.dt = 0 ∧ State.reset.st = 0 ∧
    (∀ px py, State.reset.disp.pixel px py = false) ∧ (∀ k, State.reset.key k = false) ∧ State.reset.wait = none ∧
    (∀ k : Fin 80, State.reset.mem.read (Config.fontBase.val + k.val) = fontData[k.val]?.getD 0) ∧
    ∀ a, a < Config.fontBase.val ∨ Config.fontBase.val + 80 ≤ a → State.reset.mem.read a = 0

/-- R242, R243, R244: what LOAD leaves, in every state it is issued in, and that it faults only on a ROM over 3584 bytes. `I`
and the key-wait are cleared (decision D5), other memory is kept (decision D6), an empty ROM is accepted (decision D33):
log 15. -/
def Obligations.LoadRestartsWithTheRom : Prop :=
  ∀ (rom : List Byte) (s : State),
    (rom.length ≤ 3584 → ∃ t, deliver (.load rom) s = (t, .ok) ∧
      (∀ k, ∀ h : k < rom.length, t.mem.read (0x200 + k) = rom[k]) ∧
      (∀ a, a < 0x200 ∨ 0x200 + rom.length ≤ a → t.mem.read a = s.mem.read a) ∧
      t.pc = 0x200 ∧ (∀ q, t.reg q = 0) ∧ t.i = 0 ∧ t.sp.val = 0 ∧ t.dt = 0 ∧ t.st = 0 ∧
      (∀ px py, t.disp.pixel px py = false) ∧ (∀ k, t.key k = false) ∧ t.wait = none) ∧
    (3584 < rom.length → deliver (.load rom) s = (s, .fault .romTooLarge))

/-- R245: after a successful LOAD of at least two bytes, the next step runs the word of its first two. -/
def Obligations.LoadedProgramStartsAtItsFirstWord : Prop :=
  ∀ (s : State) (hi lo : Byte) (rest : List Byte) (i : Instr), rest.length ≤ 3582 → decode (hi ++ lo) = .ok i →
    ∃ t, deliver (.load (hi :: lo :: rest)) s = (t, .ok) ∧ step t = exec i { t with pc := 0x202 }

/-- The interface's placing of one instruction: the very next step runs exactly it (the model's own, log 6). -/
def Obligations.PlacedWordIsTheNextToRun : Prop :=
  ∀ (s : State) (i : Instr), i.WellFormed = true →
    step (s.withFetchWord 16 (encode i).toNat) =
      exec i { s.withFetchWord 16 (encode i).toNat with pc := (s.withFetchWord 16 (encode i).toNat).pc + 2 }

/-! ### Faults (60_exceptions.md) -/

/-- R201, R202: which instruction faults, with what, and exactly when; and no instruction is refused. -/
def Obligations.InstructionsFaultExactlyAsListed : Prop :=
  (∀ (i : Instr) (s : State) (f : Fault), exec i s = .fault f ↔
    ((∃ nnn, i = .call nnn) ∧ s.sp.val = 16 ∧ f = .stackOverflow) ∨
    (i = .ret ∧ s.sp.val = 0 ∧ f = .stackUnderflow) ∨
    ((∃ x y n, i = .drw x y n ∧ 0 < n ∧ 4096 < s.i.toNat + n) ∧ f = .outOfBoundsAccess) ∨
    ((∃ x, i = .ldB x) ∧ 4096 < s.i.toNat + 3 ∧ f = .outOfBoundsAccess) ∨
    ((∃ x, (i = .stRegs x ∨ i = .ldRegs x) ∧ 4096 < s.i.toNat + x.val + 1) ∧ f = .outOfBoundsAccess)) ∧
  ∀ (i : Instr) (s : State) (q : Refusal), exec i s ≠ .refused q

/-- R203: an event that returns a fault leaves every piece of state as it was. -/
def Obligations.FaultingEventChangesNothing : Prop :=
  ∀ (e : Event) (s t : State) (f : Fault), deliver e s = (t, .fault f) → t = s

/-- The events that R204 says cure no fault of TICK: all but LOAD and RESET. -/
def Sys2Proof.Claims.curesNothing : Event → Bool
  | .tick _ | .tickTimers | .keypress _ _ | .getDisplay | .getSound => true
  | .reset | .load _ => false

/-- R204: a TICK that faulted faults again with the same fault, whatever its `rand8`, after any history without a LOAD or
a RESET. -/
def Obligations.FaultIsStickyUntilLoadOrReset : Prop :=
  ∀ (s : State) (b c : Byte) (f : Fault) (es : List Event), (deliver (.tick b) s).2 = .fault f →
    (∀ e ∈ es, curesNothing e = true) → (deliver (.tick c) (deliverAll es s).1).2 = .fault f

/-! ### Who writes what (10_state.md, 00_scope.md) -/

/-- The registers R11 says an instruction writes: its destination, `V[0..x]` of FX65, and VF as a flag. -/
def Sys2Proof.Claims.writesReg : Instr → Reg → Bool
  | .ldImm x _, q | .addImm x _, q | .ldReg x _, q | .orReg x _, q | .andReg x _, q | .xorReg x _, q
  | .rnd x _, q | .ldVxDt x, q => decide (q = x)
  | .addReg x _, q | .subReg x _, q | .shr x _, q | .subnReg x _, q | .shl x _, q => decide (q = x ∨ q = 15)
  | .drw _ _ _, q => decide (q = 15)
  | .ldRegs x, q => decide (q ≤ x)
  | .cls, _ | .ret, _ | .jp _, _ | .call _, _ | .seImm _ _, _ | .sneImm _ _, _ | .seReg _ _, _ | .sneReg _ _, _
  | .ldI _, _ | .jpV0 _, _ | .skp _, _ | .sknp _, _ | .ldVxK _, _ | .ldDtVx _, _ | .ldStVx _, _ | .addI _, _
  | .ldF _, _ | .ldB _, _ | .stRegs _, _ => false

/-- The registers R11 says an instruction reads. -/
def Sys2Proof.Claims.readsReg : Instr → Reg → Bool
  | .seImm x _, q | .sneImm x _, q | .addImm x _, q | .shr x _, q | .shl x _, q | .skp x, q | .sknp x, q
  | .ldDtVx x, q | .ldStVx x, q | .addI x, q | .ldF x, q | .ldB x, q => decide (q = x)
  | .seReg x y, q | .sneReg x y, q | .orReg x y, q | .andReg x y, q | .xorReg x y, q | .addReg x y, q
  | .subReg x y, q | .subnReg x y, q | .drw x y _, q => decide (q = x ∨ q = y)
  | .ldReg _ y, q => decide (q = y)
  | .jpV0 _, q => decide (q = 0)
  | .stRegs x, q => decide (q ≤ x)
  | .cls, _ | .ret, _ | .jp _, _ | .call _, _ | .ldImm _ _, _ | .ldI _, _ | .rnd _ _, _ | .ldVxDt _, _
  | .ldVxK _, _ | .ldRegs _, _ => false

/-- An answer with a register of its next state replaced. -/
def Sys2Proof.Claims.withReg (q : Reg) (b : Byte) : Result → Result
  | .next t => .next (t.setReg q b)
  | .fault f => .fault f
  | .refused r => .refused r

/-- R11: a register an instruction does not write is as before, and one that it neither reads nor writes could hold any
other value without making a difference to anything else; one that it writes and does not read makes no difference at all;
FX0A names the register that a later press writes. That a shift does not read `V[y]` is the spec's decision D14 (log 12),
that VF is written last its decision D12 (log 10). -/
def Obligations.RegistersAreReadAndWrittenAsListed : Prop :=
  (∀ (i : Instr) (s t : State), exec i s = .next t → ∀ q, writesReg i q = false → t.reg q = s.reg q) ∧
  (∀ (i : Instr) (s : State) (q : Reg) (b : Byte), writesReg i q = false → readsReg i q = false →
    exec i (s.setReg q b) = withReg q b (exec i s)) ∧
  (∀ (i : Instr) (s : State) (q : Reg) (b : Byte), writesReg i q = true → readsReg i q = false →
    exec i (s.setReg q b) = exec i s) ∧
  ∀ (x : Reg) (s t : State) (key : Fin 16), exec (.ldVxK x) s = .next t →
    ((deliver (.keypress key.val true) t).1.reg x).toNat = key.val

/-- R12: the six flag writers leave VF 0 or 1, and no other instruction changes VF but as its ordinary destination. -/
def Obligations.VfIsAFlagOfSixInstructionsOnly : Prop :=
  ∀ (i : Instr) (s t : State), exec i s = .next t →
    ((∃ x y n, i = .addReg x y ∨ i = .subReg x y ∨ i = .shr x y ∨ i = .subnReg x y ∨ i = .shl x y ∨ i = .drw x y n) →
      t.reg 15 = 0 ∨ t.reg 15 = 1) ∧
    (t.reg 15 ≠ s.reg 15 →
      (∃ x y n, i = .addReg x y ∨ i = .subReg x y ∨ i = .shr x y ∨ i = .subnReg x y ∨ i = .shl x y ∨ i = .drw x y n) ∨
      (∃ y nn, i = .ldImm 15 nn ∨ i = .addImm 15 nn ∨ i = .ldReg 15 y ∨ i = .orReg 15 y ∨ i = .andReg 15 y ∨
        i = .xorReg 15 y ∨ i = .rnd 15 nn ∨ i = .ldVxDt 15 ∨ i = .ldRegs 15))

/-- R13, R17: only ANNN, FX1E and FX29 write `I`; only 2NNN and 00EE move the stack. -/
def Obligations.IndexAndStackHaveTheirOwnWriters : Prop :=
  ∀ (i : Instr) (s t : State), exec i s = .next t →
    (t.i ≠ s.i → ∃ x nnn, i = .ldI nnn ∨ i = .addI x ∨ i = .ldF x) ∧
    (t.stack ≠ s.stack → ∃ nnn, i = .call nnn) ∧ (t.sp ≠ s.sp → i = .ret ∨ ∃ nnn, i = .call nnn)

/-- R22, R45, R46: a TICK changes a byte of memory only by FX33 and FX55, and only in the block at `I`; the addresses below
0x200 are no exception. -/
def Obligations.MemoryChangesOnlyInTheStoredBlock : Prop :=
  ∀ (s t : State) (a : Nat), step s = .next t → t.mem.read a ≠ s.mem.read a →
    s.base ≤ a ∧ ∃ x, (s.nextInstr = .ok (.ldB x) ∧ a < s.base + 3) ∨ (s.nextInstr = .ok (.stRegs x) ∧ a ≤ s.base + x.val)

/-- R18: a TICK changes a timer only by FX15 and FX18, only TICK_TIMERS counts them down, and never below 0; both are 0
after RESET. -/
def Obligations.TimersAreSetByTwoInstructionsOnly : Prop :=
  (∀ s t : State, step s = .next t →
    (t.dt ≠ s.dt → s.wait = none ∧ ∃ x, s.nextInstr = .ok (.ldDtVx x) ∧ t.dt = s.reg x) ∧
    (t.st ≠ s.st → s.wait = none ∧ ∃ x, s.nextInstr = .ok (.ldStVx x) ∧ t.st = s.reg x)) ∧
  (∀ (e : Event) (s : State), (∀ b, e ≠ .tick b) →
    ((deliver e s).1.dt ≠ s.dt → (e = .tickTimers ∧ (deliver e s).1.dt.toNat + 1 = s.dt.toNat) ∨
      ((e = .reset ∨ ∃ rom, e = .load rom) ∧ (deliver e s).1.dt = 0)) ∧
    ((deliver e s).1.st ≠ s.st → (e = .tickTimers ∧ (deliver e s).1.st.toNat + 1 = s.st.toNat) ∨
      ((e = .reset ∨ ∃ rom, e = .load rom) ∧ (deliver e s).1.st = 0))) ∧
  State.reset.dt = 0 ∧ State.reset.st = 0

/-- R19, R20: a TICK changes the display only by 00E0 and DXYN, and the keys never. -/
def Obligations.DisplayAndKeysHaveTheirOwnWriters : Prop :=
  ∀ s t : State, step s = .next t → t.keys = s.keys ∧
    (t.disp ≠ s.disp → s.wait = none ∧ (s.nextInstr = .ok .cls ∨ ∃ x y n, s.nextInstr = .ok (.drw x y n)))

/-- R21: the whole of its table of transitions between Running and AwaitingKey (the spec's decisions D5 and D27, logs 15
and 19). -/
def Obligations.WaitFollowsItsTransitionTable : Prop :=
  ∀ s : State,
    (s.wait = none → ∀ e : Event, (deliver e s).1.wait ≠ none →
      ∃ b x, e = .tick b ∧ s.nextInstr = .ok (.ldVxK x) ∧ (deliver e s).1.wait = some x) ∧
    (s.wait = none → ∀ b x, s.nextInstr = .ok (.ldVxK x) → (deliver (.tick b) s).1.wait = some x) ∧
    (∀ r, s.wait = some r → ∀ key, key ≤ 15 → (deliver (.keypress key true) s).1.wait = none) ∧
    (∀ rom, rom.length ≤ 3584 → (deliver (.load rom) s).1.wait = none) ∧
    (deliver .reset s).1.wait = none ∧
    (∀ r, s.wait = some r → ∀ e : Event, (deliver e s).1.wait ≠ some r →
      e = .reset ∨ (∃ rom, e = .load rom ∧ rom.length ≤ 3584) ∨ ∃ key, e = .keypress key true ∧ key ≤ 15)

/-- R4, its column "state it may write", for the events other than TICK and RESET. That LOAD keeps `rand8` and `draws` is
about the model's own two fields (log 1, DESIGN CHOICE), of which R4 does not speak. -/
def Obligations.EventsWriteOnlyTheListedState : Prop :=
  ∀ s : State,
    (deliver .tickTimers s).1 = { s with dt := (deliver .tickTimers s).1.dt, st := (deliver .tickTimers s).1.st } ∧
    (∀ key pressed, ∃ v keys wait, (deliver (.keypress key pressed) s).1 = { s with v := v, keys := keys, wait := wait } ∧
      ∀ q : Reg, v[q.val] ≠ s.reg q → pressed = true ∧ key ≤ 15 ∧ s.wait = some q ∧ wait = none) ∧
    (deliver .getDisplay s).1 = s ∧ (deliver .getSound s).1 = s ∧
    (∀ rom, ((deliver (.load rom) s).1.rand8, (deliver (.load rom) s).1.draws) = (s.rand8, s.draws) ∧
      ∀ a, a < 0x200 ∨ 0x200 + rom.length ≤ a → (deliver (.load rom) s).1.mem.read a = s.mem.read a)

/-! ### The invariant -/

/-- The reset state meets the invariant (R16, R25). That memory is in a canonical form is the model's own clause of the
invariant (log 4, DESIGN CHOICE). -/
def Obligations.ResetStateMeetsTheInvariant : Prop := State.reset.Inv

/-- R16, R100: every step keeps the invariant: PC at most 0x10FE, every live stack entry between 0x0002 and 0x1000, and
memory in its canonical form, a clause that is the model's own (log 4, DESIGN CHOICE). -/
def Obligations.StepKeepsTheInvariant : Prop := ∀ s t : State, s.Inv → step s = .next t → t.Inv

/-- R16, R100: so does every event of the boundary, whatever its inputs and whatever it returns. Its clause on the form of
memory is the model's own (log 4, DESIGN CHOICE). -/
def Obligations.EveryEventKeepsTheInvariant : Prop := ∀ (e : Event) (s : State), s.Inv → (deliver e s).1.Inv

/-- R16: in every state that any history from RESET reaches, PC is at most 0x10FE. -/
def Obligations.PcNeverPassesItsBound : Prop :=
  ∀ es : List Event, (deliverAll es State.reset).1.pc.toNat ≤ 0x10FE

/-! ### Infinite histories (00_scope.md rule R5; that the host may choose any is the spec's decision D2, log 5) -/

/-- R5, R16: throughout any infinite history from a state that meets the invariant, the invariant holds. Its clause on the
form of memory is the model's own (log 4, DESIGN CHOICE). -/
def Obligations.EndlessHistoriesKeepTheInvariant : Prop :=
  ∀ (h : History) (s : State), s.Inv → ∀ n, (stateAt h s n).Inv

/-- R5, R225, R233: where presses of existing keys never cease to come, every key-wait ends. The premise is needed: without
it the core may wait for ever (R174). Which press ends it is the spec's decision D27 (log 19). -/
def Obligations.FairPressesEndEveryWait : Prop :=
  ∀ (h : History) (s : State), InfinitelyOften Event.IsPress h →
    ∀ n r, (stateAt h s n).wait = some r → ∃ m, n < m ∧ (stateAt h s m).wait = none

/-- R5, R220, R252 (d): where TICK_TIMERS never ceases to come and from event `n` on no TICK executes FX15, `DT` never
rises, and from some event on it is 0. Both hold in every state, waiting or faulting ones included (decision D32, log 25). -/
def Obligations.FairTimersRunOutAndStayOut : Prop :=
  ∀ (h : History) (s : State) (n : Nat), (∀ m, n ≤ m → ¬(h m).SetsDelay (stateAt h s m)) →
    (∀ m, n ≤ m → (stateAt h s (m + 1)).dt.toNat ≤ (stateAt h s m).dt.toNat) ∧
    (InfinitelyOften (· = .tickTimers) h → ∃ m, n ≤ m ∧ ∀ k, m ≤ k → (stateAt h s k).dt = 0)
end

