-- ==== Sys2Proof/Laws/Decode.lean ====
section
/-! SUPPORT. Laws/Decode.lean: the fields of a word built from fields, and a word built from its own fields. -/

namespace Sys2Proof

/-! ### Digits -/

@[simp] theorem regOf_digit (r : Reg) : regOf (digit r) = r := rfl
@[simp] theorem digit_regOf (d : Nibble) : digit (regOf d) = d := rfl

/-! ### Fields of the formats (R61) -/

variable (op n : Nibble) (nnn : Imm12) (x y : Reg) (nn : Byte)

@[simp] theorem opField_formatA : opField (formatA op nnn) = op := by
  ext i hi
  simp only [opField, formatA, BitVec.getElem_extractLsb', BitVec.getLsbD_append]
  rw [if_neg (by omega)]
  simp [show 12 + i - 12 = i by omega, BitVec.getLsbD_eq_getElem hi]

@[simp] theorem nnnField_formatA : nnnField (formatA op nnn) = nnn := by
  ext i hi
  simp only [nnnField, formatA, BitVec.getElem_extractLsb', BitVec.getLsbD_append]
  rw [if_pos (by omega)]
  simp [BitVec.getLsbD_eq_getElem hi]

@[simp] theorem opField_formatXK : opField (formatXK op x nn) = op := by
  ext i hi
  simp only [opField, formatXK, BitVec.getElem_extractLsb', BitVec.getLsbD_append]
  rw [if_neg (by omega)]
  simp [show 12 + i - (4 + 8) = i by omega, BitVec.getLsbD_eq_getElem hi]

@[simp] theorem xField_formatXK : xField (formatXK op x nn) = digit x := by
  ext i hi
  simp only [xField, formatXK, BitVec.getElem_extractLsb', BitVec.getLsbD_append]
  rw [if_pos (by omega), if_neg (by omega)]
  simp [show 8 + i - 8 = i by omega, BitVec.getLsbD_eq_getElem hi]

@[simp] theorem nnField_formatXK : nnField (formatXK op x nn) = nn := by
  ext i hi
  simp only [nnField, formatXK, BitVec.getElem_extractLsb', BitVec.getLsbD_append]
  rw [if_pos (by omega), if_pos (by omega)]
  simp [BitVec.getLsbD_eq_getElem hi]

@[simp] theorem opField_formatXYN : opField (formatXYN op x y n) = op := by
  ext i hi
  simp only [opField, formatXYN, BitVec.getElem_extractLsb', BitVec.getLsbD_append]
  rw [if_neg (by omega)]
  simp [show 12 + i - (4 + (4 + 4)) = i by omega, BitVec.getLsbD_eq_getElem hi]

@[simp] theorem xField_formatXYN : xField (formatXYN op x y n) = digit x := by
  ext i hi
  simp only [xField, formatXYN, BitVec.getElem_extractLsb', BitVec.getLsbD_append]
  rw [if_pos (by omega), if_neg (by omega)]
  simp [show 8 + i - (4 + 4) = i by omega, BitVec.getLsbD_eq_getElem hi]

@[simp] theorem yField_formatXYN : yField (formatXYN op x y n) = digit y := by
  ext i hi
  simp only [yField, formatXYN, BitVec.getElem_extractLsb', BitVec.getLsbD_append]
  rw [if_pos (by omega), if_pos (by omega), if_neg (by omega)]
  simp [show 4 + i - 4 = i by omega, BitVec.getLsbD_eq_getElem hi]

@[simp] theorem nField_formatXYN : nField (formatXYN op x y n) = n := by
  ext i hi
  simp only [nField, formatXYN, BitVec.getElem_extractLsb', BitVec.getLsbD_append]
  rw [if_pos (by omega), if_pos (by omega), if_pos (by omega)]
  simp [BitVec.getLsbD_eq_getElem hi]

/-! ### A word is made of its fields -/

theorem formatA_fields (w : Word) : formatA (opField w) (nnnField w) = w := by
  apply BitVec.eq_of_getLsbD_eq
  intro i hi
  simp only [formatA, opField, nnnField, BitVec.getLsbD_append, BitVec.getLsbD_extractLsb']
  split
  · simp; omega
  · rw [show 12 + (i - 12) = i by omega]; simp; omega

theorem formatXK_fields (w : Word) : formatXK (opField w) (regOf (xField w)) (nnField w) = w := by
  apply BitVec.eq_of_getLsbD_eq
  intro i hi
  simp only [formatXK, digit_regOf, opField, xField, nnField, BitVec.getLsbD_append, BitVec.getLsbD_extractLsb']
  split
  · split
    · simp; omega
    · rw [show 8 + (i - 8) = i by omega]; simp; omega
  · rw [show 12 + (i - (4 + 8)) = i by omega]; simp; omega

theorem formatXYN_fields (w : Word) :
    formatXYN (opField w) (regOf (xField w)) (regOf (yField w)) (nField w) = w := by
  apply BitVec.eq_of_getLsbD_eq
  intro i hi
  simp only [formatXYN, digit_regOf, opField, xField, yField, nField, BitVec.getLsbD_append,
    BitVec.getLsbD_extractLsb']
  split
  · split
    · split
      · simp; omega
      · rw [show 4 + (i - 4) = i by omega]; simp; omega
    · rw [show 8 + (i - (4 + 4)) = i by omega]; simp; omega
  · rw [show 12 + (i - (4 + (4 + 4))) = i by omega]; simp; omega

/-! ### The masks of the opcode table (R62) -/

/-- Mask F000 keeps `op`. -/
theorem and_maskA (w : Word) : w &&& 0xF000#16 = formatA (opField w) 0 := by
  apply BitVec.eq_of_getLsbD_eq
  intro i hi
  simp only [formatA, opField, BitVec.getLsbD_and, BitVec.getLsbD_append, BitVec.getLsbD_extractLsb']
  interval_cases i <;> simp

/-- Mask F00F keeps `op` and `n`. -/
theorem and_maskXY (w : Word) : w &&& 0xF00F#16 = formatXYN (opField w) 0 0 (nField w) := by
  apply BitVec.eq_of_getLsbD_eq
  intro i hi
  simp only [formatXYN, opField, nField, digit, BitVec.getLsbD_and, BitVec.getLsbD_append, BitVec.getLsbD_extractLsb']
  interval_cases i <;> simp

/-- Mask F0FF keeps `op` and `nn`. -/
theorem and_maskXF (w : Word) : w &&& 0xF0FF#16 = formatXK (opField w) 0 (nnField w) := by
  apply BitVec.eq_of_getLsbD_eq
  intro i hi
  simp only [formatXK, opField, nnField, digit, BitVec.getLsbD_and, BitVec.getLsbD_append, BitVec.getLsbD_extractLsb']
  interval_cases i <;> simp

/-- Mask FFFF keeps the word. -/
theorem and_maskZ (w : Word) : w &&& 0xFFFF#16 = w := by
  apply BitVec.eq_of_getLsbD_eq
  intro i hi
  interval_cases i <;> simp

/-! ### Bytes of a word (R41) -/

@[simp] theorem wordOfBytes_bytes (w : Word) : wordOfBytes (hiByte w) (loByte w) = w := by
  apply BitVec.eq_of_getLsbD_eq
  intro i hi
  simp only [wordOfBytes, hiByte, loByte, BitVec.getLsbD_append, BitVec.getLsbD_extractLsb']
  split
  · simp; omega
  · rw [show 8 + (i - 8) = i by omega]; simp; omega

/-- Decoding two bytes is decoding their word. -/
theorem decodeBytes_cons_cons (hi lo : Byte) (rest : List Byte) :
    decodeBytes (hi :: lo :: rest) = (decode (wordOfBytes hi lo)).map fun i => (i, rest) := rfl

end Sys2Proof
end

