-- ==== Sys2Proof/Laws/Memory.lean ====
section
/-! SUPPORT. Laws/Memory.lean: reading after writing, the canonical form and what it is good for, and one lemma for each
of the block accesses that says everything it can do. -/

namespace Sys2Proof.Machine

/-! ### Reset contents -/

/-- At and above 0x200 the reset contents are 0, wherever the font is. -/
theorem resetByte_high {a : Nat} (h : 0x200 ≤ a) : resetByte a = 0 := by
  simp [resetByte, resetByteFor, Config.progBase, Nat.not_lt.mpr h]

/-- The font's 80 bytes lie below 0x200 (R3). -/
theorem fontBase_le : fontBase + 80 ≤ 0x200 := by
  have := Config.fontBase.isLt
  simp only [fontBase]
  omega

theorem fontData_length : fontData.length = 80 := rfl

/-! ### Reading after writing (R47) -/

@[simp] theorem read_nil (a : Nat) : Memory.read [] a = resetByte a := rfl

@[simp] theorem read_cons (b a : Nat) (w : Byte) (m : Memory) :
    Memory.read ((b, w) :: m) a = if a = b then w else m.read a := rfl

theorem read_erase (m : Memory) (a c : Nat) :
    (m.erase a).read c = if c = a then resetByte a else m.read c := by
  induction m with
  | nil => simp only [Memory.erase, List.filter_nil, read_nil]; split <;> simp_all
  | cons e m ih =>
    obtain ⟨b, w⟩ := e
    simp only [Memory.erase] at ih
    by_cases hb : b = a
    · subst hb
      simp only [Memory.erase, List.filter_cons, bne_self_eq_false, Bool.false_eq_true, if_false, ih, read_cons]
      split <;> rfl
    · simp only [Memory.erase, List.filter_cons, bne_iff_ne, ne_eq, hb, not_false_eq_true, if_true, ih, read_cons]
      split <;> split <;> simp_all

theorem read_insert (m : Memory) (a c : Nat) (x : Byte) (h : ∀ e ∈ m, e.1 ≠ a) :
    (m.insert a x).read c = if c = a then x else m.read c := by
  induction m with
  | nil => rfl
  | cons e m ih =>
    obtain ⟨b, w⟩ := e
    have hb : b ≠ a := h (b, w) List.mem_cons_self
    simp only [Memory.insert]
    split
    · rfl
    · simp only [read_cons, ih fun e he => h e (List.mem_cons_of_mem _ he)]
      split <;> split <;> simp_all

theorem mem_erase {m : Memory} {a : Nat} {e : Host.Cell} : e ∈ m.erase a ↔ e ∈ m ∧ e.1 ≠ a := by
  simp [Memory.erase]

/-- A read after a write: the written address has the byte written, every other address is as before. -/
@[simp] theorem read_write (m : Memory) (a c : Nat) (x : Byte) :
    (m.write a x).read c = if c = a then x else m.read c := by
  simp only [Memory.write]
  split
  · next h => rw [read_erase, h]
  · rw [read_insert _ _ _ _ fun e he => (mem_erase.mp he).2, read_erase]
    split <;> rfl

/-! ### The canonical form -/

theorem wf_nil : Memory.wf [] := by simp [Memory.wf]

theorem mem_insert {m : Memory} {a : Nat} {x : Byte} {e : Host.Cell} : e ∈ m.insert a x ↔ e = (a, x) ∨ e ∈ m := by
  induction m with
  | nil => simp [Memory.insert]
  | cons f m ih =>
    simp only [Memory.insert]
    split
    · simp
    · simp only [List.mem_cons, ih]
      tauto

theorem pairwise_insert {m : Memory} {a : Nat} {x : Byte} (h : (m.map Prod.fst).Pairwise (· < ·))
    (ha : ∀ e ∈ m, e.1 ≠ a) : ((m.insert a x).map Prod.fst).Pairwise (· < ·) := by
  induction m with
  | nil => simp [Memory.insert]
  | cons f m ih =>
    obtain ⟨b, w⟩ := f
    simp only [List.map_cons, List.pairwise_cons] at h
    have hb : b ≠ a := ha (b, w) List.mem_cons_self
    simp only [Memory.insert]
    split
    · next hlt =>
      simp only [List.map_cons, List.pairwise_cons]
      refine ⟨fun c hc => ?_, h.1, h.2⟩
      rcases List.mem_cons.mp hc with rfl | hc
      · exact hlt
      · exact lt_trans hlt (h.1 c hc)
    · next hge =>
      simp only [List.map_cons, List.pairwise_cons]
      refine ⟨fun c hc => ?_, ih h.2 fun e he => ha e (List.mem_cons_of_mem _ he)⟩
      obtain ⟨e, he, rfl⟩ := List.mem_map.mp hc
      rcases mem_insert.mp he with rfl | he
      · show b < a
        omega
      · exact h.1 e.1 (List.mem_map_of_mem he)

/-- Every write to an existing address keeps the canonical form. -/
theorem wf_write {m : Memory} {a : Nat} (x : Byte) (h : m.wf) (ha : a < Config.memSize) : (m.write a x).wf := by
  have hp : ((m.erase a).map Prod.fst).Pairwise (· < ·) :=
    h.1.sublist (List.filter_sublist.map Prod.fst)
  simp only [Memory.write]
  split
  · exact ⟨hp, fun e he => h.2 e (mem_erase.mp he).1⟩
  · next hx =>
    refine ⟨pairwise_insert hp fun e he => (mem_erase.mp he).2, fun e he => ?_⟩
    rcases mem_insert.mp he with rfl | he
    · exact ⟨ha, hx⟩
    · exact h.2 e (mem_erase.mp he).1

/-- An address below every listed one reads as its reset contents. -/
theorem read_of_lt {m : Memory} {a : Nat} (h : ∀ e ∈ m, a < e.1) : m.read a = resetByte a := by
  induction m with
  | nil => rfl
  | cons e m ih =>
    obtain ⟨b, w⟩ := e
    have : a ≠ b := Nat.ne_of_lt (h (b, w) List.mem_cons_self)
    simp [this, ih fun e he => h e (List.mem_cons_of_mem _ he)]

theorem wf_tail {e : Host.Cell} {m : Memory} (h : Memory.wf (e :: m)) : m.wf ∧ ∀ f ∈ m, e.1 < f.1 := by
  simp only [Memory.wf, List.map_cons, List.pairwise_cons] at h
  exact ⟨⟨h.1.2, fun f hf => h.2 f (List.mem_cons_of_mem _ hf)⟩, fun f hf => h.1.1 f.1 (List.mem_map_of_mem hf)⟩

/-- What the form is for: two memories in canonical form that read alike everywhere are equal data. -/
theorem wf_ext : ∀ {m n : Memory}, m.wf → n.wf → (∀ a, m.read a = n.read a) → m = n
  | [], [], _, _, _ => rfl
  | [], (b, w) :: n, _, hn, h => by
    have := h b
    simp only [read_nil, read_cons, if_true] at this
    exact absurd this.symm (hn.2 (b, w) List.mem_cons_self).2
  | (a, v) :: m, [], hm, _, h => by
    have := h a
    simp only [read_nil, read_cons, if_true] at this
    exact absurd this (hm.2 (a, v) List.mem_cons_self).2
  | (a, v) :: m, (b, w) :: n, hm, hn, h => by
    obtain ⟨hm', am⟩ := wf_tail hm
    obtain ⟨hn', bn⟩ := wf_tail hn
    rcases Nat.lt_trichotomy a b with hab | rfl | hab
    · have := h a
      rw [read_of_lt (m := (b, w) :: n) (List.forall_mem_cons.mpr ⟨hab, fun e he => lt_trans hab (bn e he)⟩)] at this
      simp only [read_cons, if_true] at this
      exact absurd this (hm.2 (a, v) List.mem_cons_self).2
    · have hv : v = w := by simpa using h a
      subst hv
      have : m = n := wf_ext hm' hn' fun c => by
        by_cases hc : c = a
        · subst hc
          rw [read_of_lt am, read_of_lt bn]
        · simpa [hc] using h c
      rw [this]
    · have := h b
      rw [read_of_lt (m := (a, v) :: m) (List.forall_mem_cons.mpr ⟨hab, fun e he => lt_trans hab (am e he)⟩)] at this
      simp only [read_cons, if_true] at this
      exact absurd this.symm (hn.2 (b, w) List.mem_cons_self).2

/-! ### The primitives and the blocks (R40): one lemma each -/

/-- `MemRead(addr, 1)` answers exactly inside memory. -/
theorem memRead_eq (m : Memory) (a : Nat) :
    memRead m a = if a < 4096 then .ok (m.read a) else .error .outOfBoundsAccess := by
  by_cases h : a < 4096
  · rw [memRead, if_neg (by simp [Config.memSize]; omega), if_pos h]
  · rw [memRead, if_pos (by simp [Config.memSize]; omega), if_neg h]

/-- `MemRead(addr, 2)` answers exactly inside memory. -/
theorem memRead2_eq (m : Memory) (a : Nat) :
    memRead2 m a = if a ≤ 0xFFE then .ok (m.read a ++ m.read (a + 1)) else .error .outOfBoundsAccess := by
  by_cases h : a ≤ 0xFFE
  · rw [memRead2, if_neg (by simp [Config.memSize]; omega), if_pos h]
  · rw [memRead2, if_pos (by simp [Config.memSize]; omega), if_neg h]

/-- `MemWrite(addr, 1, v)` answers exactly inside memory. -/
theorem memWrite_eq (m : Memory) (a : Nat) (x : Byte) :
    memWrite m a x = if a < 4096 then .ok (m.write a x) else .error .outOfBoundsAccess := by
  by_cases h : a < 4096
  · rw [memWrite, if_neg (by simp [Config.memSize]; omega), if_pos h]
  · rw [memWrite, if_pos (by simp [Config.memSize]; omega), if_neg h]

/-- A block read: nothing is checked for an empty block; else all of it lies in memory, or the access fails. -/
theorem readBlock_eq (m : Memory) (n a : Nat) :
    readBlock m a n =
      if n = 0 ∨ a + n ≤ 4096 then .ok ((List.range n).map fun k => m.read (a + k))
      else .error .outOfBoundsAccess := by
  induction n generalizing a with
  | zero => simp [readBlock]
  | succ n ih =>
    simp only [readBlock, ih, memRead_eq]
    by_cases ha : a < 4096
    · by_cases hn : n = 0 ∨ a + 1 + n ≤ 4096
      · have : n + 1 = 0 ∨ a + (n + 1) ≤ 4096 := by omega
        simp only [if_pos ha, if_pos hn, if_pos this, List.range_succ_eq_map, List.map_cons, List.map_map, Nat.add_zero]
        congr 2
        exact List.map_congr_left fun k _ => by simp [Nat.add_assoc, Nat.add_comm 1 k]
      · have : ¬(n + 1 = 0 ∨ a + (n + 1) ≤ 4096) := by omega
        simp only [if_pos ha, if_neg hn, if_neg this]
    · have : ¬(n + 1 = 0 ∨ a + (n + 1) ≤ 4096) := by omega
      simp only [if_neg ha, if_neg this]

/-- The memory a block write leaves, when it lies in memory. -/
def storeAll (m : Memory) (a : Nat) : List Byte → Memory
  | [] => m
  | x :: xs => storeAll (m.write a x) (a + 1) xs

/-- A block write: nothing is checked for an empty block; else all of it lies in memory, or the access fails. -/
theorem writeBlock_eq (m : Memory) (a : Nat) (xs : List Byte) :
    writeBlock m a xs =
      if xs = [] ∨ a + xs.length ≤ 4096 then .ok (storeAll m a xs) else .error .outOfBoundsAccess := by
  induction xs generalizing m a with
  | nil => simp [writeBlock, storeAll]
  | cons x xs ih =>
    simp only [writeBlock, memWrite_eq, List.length_cons]
    by_cases ha : a < 4096
    · simp only [if_pos ha, ih, storeAll]
      by_cases hx : xs = []
      · subst hx
        have : a + ([] : List Byte).length + 1 ≤ 4096 := by simp; omega
        simp [storeAll]
        omega
      · have h0 : 0 < xs.length := List.length_pos_iff.mpr hx
        by_cases h : a + 1 + xs.length ≤ 4096
        · rw [if_pos (Or.inr h), if_pos (Or.inr (by omega))]
        · rw [if_neg (by simp only [hx, false_or]; exact h), if_neg (by simp; omega)]
    · simp only [if_neg ha]
      rw [if_neg (by simp; omega)]

/-- Reading after a block write: the stored bytes where they were stored, every other address as before. -/
theorem read_storeAll (m : Memory) (a c : Nat) (xs : List Byte) :
    (storeAll m a xs).read c = if h : a ≤ c ∧ c < a + xs.length then xs[c - a]'(by omega) else m.read c := by
  induction xs generalizing m a with
  | nil => simp [storeAll]
  | cons x xs ih =>
    simp only [storeAll, ih, read_write, List.length_cons]
    by_cases h1 : a + 1 ≤ c ∧ c < a + 1 + xs.length
    · have h2 : a ≤ c ∧ c < a + (xs.length + 1) := by omega
      have h3 : c - a = c - (a + 1) + 1 := by omega
      simp only [dif_pos h1, dif_pos h2, h3, List.getElem_cons_succ]
    · simp only [dif_neg h1]
      by_cases hc : c = a
      · subst hc
        simp
      · have h2 : ¬(a ≤ c ∧ c < a + (xs.length + 1)) := by omega
        simp [hc, h2]

/-- A block write inside memory keeps the canonical form. -/
theorem wf_storeAll {m : Memory} {a : Nat} {xs : List Byte} (h : m.wf) (hx : a + xs.length ≤ 4096) :
    (storeAll m a xs).wf := by
  induction xs generalizing m a with
  | nil => exact h
  | cons x xs ih =>
    simp only [List.length_cons] at hx
    exact ih (wf_write x h (by simp [Config.memSize]; omega)) (by omega)

/-- A block write keeps the canonical form. -/
theorem wf_writeBlock {m m' : Memory} {a : Nat} {xs : List Byte} (h : m.wf) (hw : writeBlock m a xs = .ok m') :
    m'.wf := by
  rw [writeBlock_eq] at hw
  split at hw
  · next hx =>
    obtain rfl : storeAll m a xs = m' := by simpa using hw
    rcases hx with rfl | hx
    · exact h
    · exact wf_storeAll h hx
  · simp at hw

end Sys2Proof.Machine
end

