-- ==== Sys2Proof/Laws/State.lean ====
section
/-! SUPPORT. Laws/State.lean: what each named update does to each field of the state, true by definition, and register
reads after register writes. Later proofs use these and never unfold an update. -/

namespace Sys2Proof.Machine

variable (s : State)

/-! ### setReg -/

@[simp] theorem setReg_v (r : Reg) (b : Byte) : (s.setReg r b).v = s.v.set r.val b := rfl
@[simp] theorem setReg_i (r : Reg) (b : Byte) : (s.setReg r b).i = s.i := rfl
@[simp] theorem setReg_pc (r : Reg) (b : Byte) : (s.setReg r b).pc = s.pc := rfl
@[simp] theorem setReg_stack (r : Reg) (b : Byte) : (s.setReg r b).stack = s.stack := rfl
@[simp] theorem setReg_sp (r : Reg) (b : Byte) : (s.setReg r b).sp = s.sp := rfl
@[simp] theorem setReg_dt (r : Reg) (b : Byte) : (s.setReg r b).dt = s.dt := rfl
@[simp] theorem setReg_st (r : Reg) (b : Byte) : (s.setReg r b).st = s.st := rfl
@[simp] theorem setReg_disp (r : Reg) (b : Byte) : (s.setReg r b).disp = s.disp := rfl
@[simp] theorem setReg_keys (r : Reg) (b : Byte) : (s.setReg r b).keys = s.keys := rfl
@[simp] theorem setReg_wait (r : Reg) (b : Byte) : (s.setReg r b).wait = s.wait := rfl
@[simp] theorem setReg_mem (r : Reg) (b : Byte) : (s.setReg r b).mem = s.mem := rfl
@[simp] theorem setReg_rand8 (r : Reg) (b : Byte) : (s.setReg r b).rand8 = s.rand8 := rfl
@[simp] theorem setReg_draws (r : Reg) (b : Byte) : (s.setReg r b).draws = s.draws := rfl

/-! ### setRegFlag -/

@[simp] theorem setRegFlag_i (r : Reg) (b f : Byte) : (s.setRegFlag r b f).i = s.i := rfl
@[simp] theorem setRegFlag_pc (r : Reg) (b f : Byte) : (s.setRegFlag r b f).pc = s.pc := rfl
@[simp] theorem setRegFlag_stack (r : Reg) (b f : Byte) : (s.setRegFlag r b f).stack = s.stack := rfl
@[simp] theorem setRegFlag_sp (r : Reg) (b f : Byte) : (s.setRegFlag r b f).sp = s.sp := rfl
@[simp] theorem setRegFlag_dt (r : Reg) (b f : Byte) : (s.setRegFlag r b f).dt = s.dt := rfl
@[simp] theorem setRegFlag_st (r : Reg) (b f : Byte) : (s.setRegFlag r b f).st = s.st := rfl
@[simp] theorem setRegFlag_disp (r : Reg) (b f : Byte) : (s.setRegFlag r b f).disp = s.disp := rfl
@[simp] theorem setRegFlag_keys (r : Reg) (b f : Byte) : (s.setRegFlag r b f).keys = s.keys := rfl
@[simp] theorem setRegFlag_wait (r : Reg) (b f : Byte) : (s.setRegFlag r b f).wait = s.wait := rfl
@[simp] theorem setRegFlag_mem (r : Reg) (b f : Byte) : (s.setRegFlag r b f).mem = s.mem := rfl
@[simp] theorem setRegFlag_rand8 (r : Reg) (b f : Byte) : (s.setRegFlag r b f).rand8 = s.rand8 := rfl
@[simp] theorem setRegFlag_draws (r : Reg) (b f : Byte) : (s.setRegFlag r b f).draws = s.draws := rfl

/-! ### advance -/

@[simp] theorem advance_v : s.advance.v = s.v := rfl
@[simp] theorem advance_i : s.advance.i = s.i := rfl
@[simp] theorem advance_pc : s.advance.pc = s.pc + 2#16 := rfl
@[simp] theorem advance_stack : s.advance.stack = s.stack := rfl
@[simp] theorem advance_sp : s.advance.sp = s.sp := rfl
@[simp] theorem advance_dt : s.advance.dt = s.dt := rfl
@[simp] theorem advance_st : s.advance.st = s.st := rfl
@[simp] theorem advance_disp : s.advance.disp = s.disp := rfl
@[simp] theorem advance_keys : s.advance.keys = s.keys := rfl
@[simp] theorem advance_wait : s.advance.wait = s.wait := rfl
@[simp] theorem advance_mem : s.advance.mem = s.mem := rfl
@[simp] theorem advance_rand8 : s.advance.rand8 = s.rand8 := rfl
@[simp] theorem advance_draws : s.advance.draws = s.draws := rfl

/-! ### nextRand8 -/

@[simp] theorem nextRand8_v : s.nextRand8.v = s.v := rfl
@[simp] theorem nextRand8_i : s.nextRand8.i = s.i := rfl
@[simp] theorem nextRand8_pc : s.nextRand8.pc = s.pc := rfl
@[simp] theorem nextRand8_stack : s.nextRand8.stack = s.stack := rfl
@[simp] theorem nextRand8_sp : s.nextRand8.sp = s.sp := rfl
@[simp] theorem nextRand8_dt : s.nextRand8.dt = s.dt := rfl
@[simp] theorem nextRand8_st : s.nextRand8.st = s.st := rfl
@[simp] theorem nextRand8_disp : s.nextRand8.disp = s.disp := rfl
@[simp] theorem nextRand8_keys : s.nextRand8.keys = s.keys := rfl
@[simp] theorem nextRand8_wait : s.nextRand8.wait = s.wait := rfl
@[simp] theorem nextRand8_mem : s.nextRand8.mem = s.mem := rfl
@[simp] theorem nextRand8_rand8 : s.nextRand8.rand8 = Config.freeRand8 s.draws := rfl
@[simp] theorem nextRand8_draws : s.nextRand8.draws = s.draws + 1 := rfl

/-! ### resetEvent -/

@[simp] theorem resetEvent_v : (resetEvent s).v = State.reset.v := rfl
@[simp] theorem resetEvent_i : (resetEvent s).i = State.reset.i := rfl
@[simp] theorem resetEvent_pc : (resetEvent s).pc = State.reset.pc := rfl
@[simp] theorem resetEvent_stack : (resetEvent s).stack = State.reset.stack := rfl
@[simp] theorem resetEvent_sp : (resetEvent s).sp = State.reset.sp := rfl
@[simp] theorem resetEvent_dt : (resetEvent s).dt = State.reset.dt := rfl
@[simp] theorem resetEvent_st : (resetEvent s).st = State.reset.st := rfl
@[simp] theorem resetEvent_disp : (resetEvent s).disp = State.reset.disp := rfl
@[simp] theorem resetEvent_keys : (resetEvent s).keys = State.reset.keys := rfl
@[simp] theorem resetEvent_wait : (resetEvent s).wait = State.reset.wait := rfl
@[simp] theorem resetEvent_mem : (resetEvent s).mem = State.reset.mem := rfl
@[simp] theorem resetEvent_rand8 : (resetEvent s).rand8 = s.rand8 := rfl
@[simp] theorem resetEvent_draws : (resetEvent s).draws = s.draws := rfl

/-! ### skipIf -/

@[simp] theorem skipIf_v (c : Bool) : (s.skipIf c).v = s.v := by cases c <;> rfl
@[simp] theorem skipIf_i (c : Bool) : (s.skipIf c).i = s.i := by cases c <;> rfl
theorem skipIf_pc (c : Bool) : (s.skipIf c).pc = if c then s.pc + 2#16 else s.pc := by
  cases c <;> rfl
@[simp] theorem skipIf_stack (c : Bool) : (s.skipIf c).stack = s.stack := by cases c <;> rfl
@[simp] theorem skipIf_sp (c : Bool) : (s.skipIf c).sp = s.sp := by cases c <;> rfl
@[simp] theorem skipIf_dt (c : Bool) : (s.skipIf c).dt = s.dt := by cases c <;> rfl
@[simp] theorem skipIf_st (c : Bool) : (s.skipIf c).st = s.st := by cases c <;> rfl
@[simp] theorem skipIf_disp (c : Bool) : (s.skipIf c).disp = s.disp := by cases c <;> rfl
@[simp] theorem skipIf_keys (c : Bool) : (s.skipIf c).keys = s.keys := by cases c <;> rfl
@[simp] theorem skipIf_wait (c : Bool) : (s.skipIf c).wait = s.wait := by cases c <;> rfl
@[simp] theorem skipIf_mem (c : Bool) : (s.skipIf c).mem = s.mem := by cases c <;> rfl
@[simp] theorem skipIf_rand8 (c : Bool) : (s.skipIf c).rand8 = s.rand8 := by cases c <;> rfl
@[simp] theorem skipIf_draws (c : Bool) : (s.skipIf c).draws = s.draws := by cases c <;> rfl

/-- A skip is a change of PC and of nothing else. -/
theorem skipIf_eq (c : Bool) : s.skipIf c = { s with pc := if c then s.pc + 2#16 else s.pc } := by
  cases c <;> rfl

/-! ### Registers (R10) -/

/-- Reading a register after a write: the written one has the byte, every other is as before. -/
@[simp] theorem reg_setReg (r q : Reg) (b : Byte) : (s.setReg r b).reg q = if q = r then b else s.reg q := by
  simp only [State.reg, State.setReg, Vector.getElem_set, Fin.ext_iff, eq_comm]

/-- After a flag-writing instruction VF has the flag, the destination the result, every other register is as before. -/
@[simp] theorem reg_setRegFlag (r q : Reg) (b f : Byte) :
    (s.setRegFlag r b f).reg q = if q = Reg.vf then f else if q = r then b else s.reg q := by
  simp only [State.setRegFlag, reg_setReg]

/-- The register file read through the accessor. -/
theorem reg_eq (r : Reg) : s.reg r = s.v[r.val] := rfl

end Sys2Proof.Machine
end

