-- ==== Sys2Proof/Laws/Ops.lean ====
section
/-! SUPPORT. Laws/Ops.lean: one lemma for each shared operation that says everything it can do: going on or raising, push
and pop, the fetch, the register blocks, pixels and sprites. -/

namespace Sys2Proof.Machine

/-! ### Going on or raising -/

@[simp] theorem andThen_ok {α : Type} (a : α) (k : α → Result) : andThen (.ok a) k = k a := rfl
@[simp] theorem andThen_error {α : Type} (f : Fault) (k : α → Result) : andThen (.error f) k = raise f := rfl

/-- A next state comes from an access that answered. -/
theorem andThen_next {α : Type} {e : Except Fault α} {k : α → Result} {t : State} (h : andThen e k = .next t) :
    ∃ a, e = .ok a ∧ k a = .next t := by
  cases e with
  | ok a => exact ⟨a, rfl, h⟩
  | error f => cases h

/-- A fault comes from the access, or from what follows it. -/
theorem andThen_fault {α : Type} {e : Except Fault α} {k : α → Result} {f : Fault} (h : andThen e k = .fault f) :
    e = .error f ∨ ∃ a, e = .ok a ∧ k a = .fault f := by
  cases e with
  | ok a => exact .inr ⟨a, rfl, h⟩
  | error g => cases h; exact .inl rfl

theorem ite_andThen {α : Type} (c : Prop) [Decidable c] (a : α) (f : Fault) (k : α → Result) :
    andThen (if c then .ok a else .error f) k = if c then k a else raise f := by
  split <;> rfl

/-! ### Operand forms and flags -/

/-- A zero-extended address immediate is its own number (R61). -/
@[simp] theorem zext16_imm_toNat (nnn : Imm12) : (zext16 nnn).toNat = nnn.toNat := by
  simp only [zext16, BitVec.toNat_setWidth]
  omega

/-- A zero-extended byte is its own number (R61). -/
@[simp] theorem zext16_byte_toNat (b : Byte) : (zext16 b).toNat = b.toNat := by
  simp only [zext16, BitVec.toNat_setWidth]
  omega

/-- The low nibble is the remainder modulo 16 (R170). -/
@[simp] theorem lowNibble_val (b : Byte) : (lowNibble b).val = b.toNat % 16 :=
  (BitVec.extractLsb'_toNat 0 4 b).trans (by simp)

/-- A flag is 1 or 0 (R12). -/
@[simp] theorem flagByte_toNat (c : Bool) : (flagByte c).toNat = if c then 1 else 0 := by cases c <;> rfl

/-! ### The call stack (R17) -/

theorem push_of_lt {s : State} (w : Word) (h : s.sp.val < 16) :
    s.push w = .ok { s with stack := s.stack.set s.sp.val w, sp := ⟨s.sp.val + 1, by omega⟩ } := dif_pos h

theorem push_of_full {s : State} (w : Word) (h : ¬s.sp.val < 16) : s.push w = .error .stackOverflow := dif_neg h

theorem pop_of_empty {s : State} (h : s.sp.val = 0) : s.pop = .error .stackUnderflow := dif_pos h

theorem pop_of_live {s : State} (h : s.sp.val ≠ 0) :
    s.pop = .ok (s.stack[s.sp.val - 1]'(by omega), { s with sp := ⟨s.sp.val - 1, by omega⟩ }) := dif_neg h

/-! ### The fetch (R81, R82) -/

theorem fetch_eq (s : State) :
    s.fetch = if s.pc.toNat ≤ 0xFFE then .ok (wordOfBytes (s.mem.read s.pc.toNat) (s.mem.read (s.pc.toNat + 1)))
      else .error .outOfBoundsAccess := memRead2_eq s.mem s.pc.toNat

/-! ### Register blocks (R145, R146) -/

@[simp] theorem regsUpTo_length (s : State) (x : Reg) : (s.regsUpTo x).length = x.val + 1 := by
  simp only [State.regsUpTo, List.length_take, Vector.length_toList]
  omega

theorem regsUpTo_getElem (s : State) (x : Reg) (k : Nat) (h : k < (s.regsUpTo x).length) :
    (s.regsUpTo x)[k] = s.reg ⟨k, by rw [regsUpTo_length] at h; omega⟩ := by
  simp only [State.regsUpTo, State.reg, List.getElem_take, Vector.getElem_toList]

/-- Filling registers from `V[k]` upward: the filled ones have the bytes, every other is as before. -/
theorem fillRegs_getElem (bs : List Byte) (v : Vector Byte 16) (k r : Nat) (hr : r < 16) :
    (fillRegs v k bs)[r] = if h : k ≤ r ∧ r < k + bs.length then bs[r - k]'(by omega) else v[r] := by
  induction bs generalizing v k with
  | nil => simp [fillRegs]
  | cons b bs ih =>
    simp only [fillRegs, ih, List.length_cons]
    by_cases h1 : k + 1 ≤ r ∧ r < k + 1 + bs.length
    · have h2 : k ≤ r ∧ r < k + (bs.length + 1) := by omega
      have h3 : r - k = r - (k + 1) + 1 := by omega
      simp only [dif_pos h1, dif_pos h2, h3, List.getElem_cons_succ]
    · simp only [dif_neg h1]
      by_cases hk : k = r
      · subst hk
        simp
      · have h2 : ¬(k ≤ r ∧ r < k + (bs.length + 1)) := by omega
        rw [dif_neg h2, Vector.getElem_setIfInBounds_ne _ hk]

/-! ### Pixels (R161) -/

/-- Inverting a pixel inverts it and leaves every other one. -/
@[simp] theorem pixel_flip (d : Display) (px qx : Fin 64) (py qy : Fin 32) :
    (d.flip px py).pixel qx qy = (d.pixel qx qy ^^ decide (qx = px ∧ qy = py)) := by
  simp only [Display.pixel, Display.flip, Vector.getElem_set, Fin.ext_iff]
  by_cases hy : py.val = qy.val
  · by_cases hx : px.val = qx.val
    · simp [hy, hx]
    · simp [hy, hx, Ne.symm hx]
  · simp [hy, Ne.symm hy]

/-- A blank display has every pixel off. -/
@[simp] theorem pixel_blank (px : Fin 64) (py : Fin 32) : blankDisplay.pixel px py = false := by
  simp [Display.pixel, blankDisplay]

/-- Two displays that agree on every pixel are equal. -/
theorem display_ext {d e : Display} (h : ∀ px py, d.pixel px py = e.pixel px py) : d = e := by
  apply Vector.ext
  intro y hy
  apply Vector.ext
  intro x hx
  exact h ⟨x, hx⟩ ⟨y, hy⟩

/-- One sprite pixel, on the display. -/
@[simp] theorem plot_pixel (g : Drawing) (on : Bool) (px qx : Fin 64) (py qy : Fin 32) :
    (g.plot on px py).disp.pixel qx qy = (g.disp.pixel qx qy ^^ (on && decide (qx = px ∧ qy = py))) := by
  cases on <;> simp [Drawing.plot]

/-- One sprite pixel, on the collision mark. -/
@[simp] theorem plot_hit (g : Drawing) (on : Bool) (px : Fin 64) (py : Fin 32) :
    (g.plot on px py).hit = (g.hit || (on && g.disp.pixel px py)) := by
  cases on <;> simp [Drawing.plot]

/-- The first `k` columns of a sprite row. -/
def Drawing.plotCols (g : Drawing) (x0 : Nat) (py : Fin 32) (b : Byte) (k : Nat) : Drawing :=
  (List.range k).foldl (fun g c => g.plot (spriteBit b c) (screenCol x0 c) py) g

theorem plotCols_succ (g : Drawing) (x0 : Nat) (py : Fin 32) (b : Byte) (k : Nat) :
    g.plotCols x0 py b (k + 1) = (g.plotCols x0 py b k).plot (spriteBit b k) (screenCol x0 k) py := by
  simp [Drawing.plotCols, List.range_succ]

theorem plotRow_eq (g : Drawing) (x0 : Nat) (py : Fin 32) (b : Byte) : g.plotRow x0 py b = g.plotCols x0 py b 8 := rfl

/-- Fewer than 64 columns land on different screen columns (R162). -/
theorem screenCol_inj {x0 c k : Nat} (hc : c < 64) (hk : k < 64) : screenCol x0 c = screenCol x0 k ↔ c = k := by
  simp only [screenCol, Fin.mk.injEq]
  omega

/-- Fewer than 32 rows land on different screen rows (R162). -/
theorem screenRow_inj {y0 r q : Nat} (hr : r < 32) (hq : q < 32) : screenRow y0 r = screenRow y0 q ↔ r = q := by
  simp only [screenRow, Fin.mk.injEq]
  omega

/-- Two exclusive inversions are one inversion by the disjunction. -/
theorem xor_decide_or {A K : Prop} [Decidable A] [Decidable K] [Decidable (A ∨ K)] (h : A → ¬K) :
    (decide A ^^ decide K) = decide (A ∨ K) := by
  by_cases hA : A
  · simp [hA, h hA]
  · by_cases hK : K <;> simp [hA, hK]

theorem plotCols_pixel (g : Drawing) (x0 : Nat) (py qy : Fin 32) (b : Byte) (qx : Fin 64) {k : Nat} (hk : k ≤ 8) :
    (g.plotCols x0 py b k).disp.pixel qx qy =
      (g.disp.pixel qx qy ^^ decide (qy = py ∧ ∃ c < k, spriteBit b c = true ∧ qx = screenCol x0 c)) := by
  induction k with
  | zero => simp [Drawing.plotCols]
  | succ k ih =>
    rw [plotCols_succ, plot_pixel, ih (by omega), Bool.xor_assoc]
    congr 1
    have hb : (spriteBit b k && decide (qx = screenCol x0 k ∧ qy = py)) =
        decide (spriteBit b k = true ∧ qx = screenCol x0 k ∧ qy = py) := by simp
    rw [hb, xor_decide_or]
    · apply decide_eq_decide.mpr
      constructor
      · rintro (⟨hy, c, hc, h⟩ | ⟨h, hx, hy⟩)
        · exact ⟨hy, c, by omega, h⟩
        · exact ⟨hy, k, by omega, h, hx⟩
      · rintro ⟨hy, c, hc, h, hx⟩
        rcases Nat.lt_succ_iff_lt_or_eq.mp hc with hc | rfl
        · exact .inl ⟨hy, c, hc, h, hx⟩
        · exact .inr ⟨h, hx, hy⟩
    · rintro ⟨-, c, hc, -, rfl⟩ ⟨-, h, -⟩
      have := (screenCol_inj (by omega) (by omega)).mp h
      omega

theorem plotCols_hit (g : Drawing) (x0 : Nat) (py : Fin 32) (b : Byte) {k : Nat} (hk : k ≤ 8) :
    (g.plotCols x0 py b k).hit =
      (g.hit || decide (∃ c < k, spriteBit b c = true ∧ g.disp.pixel (screenCol x0 c) py = true)) := by
  induction k with
  | zero => simp [Drawing.plotCols]
  | succ k ih =>
    have hnot : ¬(py = py ∧ ∃ c < k, spriteBit b c = true ∧ screenCol x0 k = screenCol x0 c) := by
      rintro ⟨-, c, hc, -, h⟩
      have := (screenCol_inj (by omega) (by omega)).mp h
      omega
    rw [plotCols_succ, plot_hit, ih (by omega), plotCols_pixel _ _ _ _ _ _ (by omega), decide_eq_false hnot,
      Bool.xor_false, Bool.or_assoc]
    congr 1
    rw [Bool.eq_iff_iff]
    simp only [Bool.or_eq_true, decide_eq_true_eq, Bool.and_eq_true]
    constructor
    · rintro (⟨c, hc, h⟩ | h)
      · exact ⟨c, by omega, h⟩
      · exact ⟨k, by omega, h⟩
    · rintro ⟨c, hc, h⟩
      rcases Nat.lt_succ_iff_lt_or_eq.mp hc with hc | rfl
      · exact .inl ⟨c, hc, h⟩
      · exact .inr h

/-- The sprite's 1 bit that lands on screen pixel (`qx`, `qy`), rows counted from `r`. -/
def spriteOn (x0 y0 r : Nat) (bs : List Byte) (qx : Fin 64) (qy : Fin 32) : Prop :=
  ∃ k, ∃ h : k < bs.length, qy = screenRow y0 (r + k) ∧ ∃ c < 8, spriteBit bs[k] c = true ∧ qx = screenCol x0 c

theorem spriteOn_cons (x0 y0 r : Nat) (b : Byte) (bs : List Byte) (qx : Fin 64) (qy : Fin 32) :
    spriteOn x0 y0 r (b :: bs) qx qy ↔
      (qy = screenRow y0 r ∧ ∃ c < 8, spriteBit b c = true ∧ qx = screenCol x0 c) ∨ spriteOn x0 y0 (r + 1) bs qx qy := by
  constructor
  · rintro ⟨k, h, hy, hc⟩
    cases k with
    | zero => exact .inl ⟨hy, hc⟩
    | succ k =>
      exact .inr ⟨k, by simpa using h, by rw [hy]; congr 1; omega, hc⟩
  · rintro (⟨hy, hc⟩ | ⟨k, h, hy, hc⟩)
    · exact ⟨0, by simp, hy, hc⟩
    · exact ⟨k + 1, by simpa using h, by rw [hy]; congr 1; omega, hc⟩

open Classical in
/-- A drawn sprite inverts exactly the pixels a 1 bit lands on: at most 31 rows never meet (R161, R162). -/
theorem plotRows_pixel (bs : List Byte) (g : Drawing) (x0 y0 r : Nat) (hr : r + bs.length ≤ 32) (qx : Fin 64)
    (qy : Fin 32) :
    (g.plotRows x0 y0 r bs).disp.pixel qx qy = (g.disp.pixel qx qy ^^ decide (spriteOn x0 y0 r bs qx qy)) := by
  induction bs generalizing g r with
  | nil => simp [Drawing.plotRows, spriteOn]
  | cons b bs ih =>
    simp only [List.length_cons] at hr
    rw [Drawing.plotRows, ih _ _ (by omega), plotRow_eq, plotCols_pixel _ _ _ _ _ _ le_rfl, Bool.xor_assoc]
    congr 1
    rw [xor_decide_or]
    · exact decide_eq_decide.mpr (spriteOn_cons ..).symm
    · rintro ⟨rfl, -⟩ ⟨k, hk, h, -⟩
      have := (screenRow_inj (by omega) (by omega)).mp h
      omega

open Classical in
/-- The collision mark of a drawn sprite: some pixel a 1 bit lands on was on (R161). -/
theorem plotRows_hit (bs : List Byte) (g : Drawing) (x0 y0 r : Nat) (hr : r + bs.length ≤ 32) :
    (g.plotRows x0 y0 r bs).hit =
      (g.hit || decide (∃ qx qy, spriteOn x0 y0 r bs qx qy ∧ g.disp.pixel qx qy = true)) := by
  induction bs generalizing g r with
  | nil => simp [Drawing.plotRows, spriteOn]
  | cons b bs ih =>
    simp only [List.length_cons] at hr
    rw [Drawing.plotRows, ih _ _ (by omega), plotRow_eq, plotCols_hit _ _ _ _ le_rfl, Bool.or_assoc]
    refine congrArg (g.hit || ·) ?_
    rw [Bool.eq_iff_iff]
    simp only [Bool.or_eq_true, decide_eq_true_eq, plotCols_pixel _ _ _ _ _ _ le_rfl]
    have hne : ∀ {qx qy}, spriteOn x0 y0 (r + 1) bs qx qy → qy ≠ screenRow y0 r := by
      rintro qx qy ⟨k, hk, rfl, -⟩ h
      have := (screenRow_inj (by omega) (by omega)).mp h
      omega
    constructor
    · rintro (⟨c, hc, hb, hp⟩ | ⟨qx, qy, hs, hp⟩)
      · exact ⟨_, _, (spriteOn_cons ..).mpr (.inl ⟨rfl, c, hc, hb, rfl⟩), hp⟩
      · refine ⟨qx, qy, (spriteOn_cons ..).mpr (.inr hs), ?_⟩
        simpa [hne hs] using hp
    · rintro ⟨qx, qy, hs, hp⟩
      rcases (spriteOn_cons ..).mp hs with ⟨rfl, c, hc, hb, rfl⟩ | hs
      · exact .inl ⟨c, hc, hb, hp⟩
      · exact .inr ⟨qx, qy, hs, by simpa [hne hs] using hp⟩

end Sys2Proof.Machine
end

