-- ==== Sys2Proof/Laws/Exec.lean ====
section
/-! SUPPORT. Laws/Exec.lean: one lemma for each meaning that can fault, saying exactly when it completes and with what;
and what a TICK and an event can do. -/

namespace Sys2Proof.Machine

/-! ### The meanings that can fault -/

theorem execCall_eq (nnn : Imm12) (s : State) :
    execCall nnn s =
      if h : s.sp.val < 16 then
        .next { s with stack := s.stack.set s.sp.val s.pc, sp := ⟨s.sp.val + 1, by omega⟩, pc := zext16 nnn }
      else .fault .stackOverflow := by
  by_cases h : s.sp.val < 16
  · simp [execCall, push_of_lt s.pc h, h]
  · simp [execCall, push_of_full s.pc h, h, raise]

theorem execRet_eq (s : State) :
    execRet s =
      if _ : s.sp.val = 0 then .fault .stackUnderflow
      else .next { s with sp := ⟨s.sp.val - 1, by omega⟩, pc := s.stack[s.sp.val - 1]'(by omega) } := by
  by_cases h : s.sp.val = 0
  · simp [execRet, pop_of_empty h, h, raise]
  · simp [execRet, pop_of_live h, h]

theorem execLdB_eq (x : Reg) (s : State) :
    execLdB x s =
      if s.base + 3 ≤ 4096 then .next { s with mem := storeAll s.mem s.base (bcdDigits (s.reg x)) }
      else .fault .outOfBoundsAccess := by
  rw [execLdB, writeBlock_eq, ite_andThen]
  simp [bcdDigits, raise]

theorem execStRegs_eq (x : Reg) (s : State) :
    execStRegs x s =
      if s.base + (x.val + 1) ≤ 4096 then .next { s with mem := storeAll s.mem s.base (s.regsUpTo x) }
      else .fault .outOfBoundsAccess := by
  have h0 : s.regsUpTo x ≠ [] := fun h => by simpa [h] using regsUpTo_length s x
  rw [execStRegs, writeBlock_eq, ite_andThen]
  simp [h0, raise]

/-- The `n` bytes at `I` that a load or a draw reads. -/
def State.bytesAt (s : State) (n : Nat) : List Byte := (List.range n).map fun k => s.mem.read (s.base + k)

@[simp] theorem bytesAt_length (s : State) (n : Nat) : (s.bytesAt n).length = n := by simp [State.bytesAt]

@[simp] theorem bytesAt_getElem (s : State) (n k : Nat) (h : k < (s.bytesAt n).length) :
    (s.bytesAt n)[k] = s.mem.read (s.base + k) := by simp [State.bytesAt]

theorem execLdRegs_eq (x : Reg) (s : State) :
    execLdRegs x s =
      if s.base + (x.val + 1) ≤ 4096 then .next { s with v := fillRegs s.v 0 (s.bytesAt (x.val + 1)) }
      else .fault .outOfBoundsAccess := by
  rw [execLdRegs, readBlock_eq, ite_andThen]
  simp [raise, State.bytesAt]

/-- The drawing a DXYN of `n` rows makes. -/
def State.drawing (s : State) (x y : Reg) (n : Nat) : Drawing :=
  Drawing.plotRows { disp := s.disp, hit := false } (s.reg x).toNat (s.reg y).toNat 0 (s.bytesAt n)

theorem execDrw_eq (x y : Reg) (n : Nat) (s : State) :
    execDrw x y n s =
      if n = 0 ∨ s.base + n ≤ 4096 then
        .next (State.setReg { s with disp := (s.drawing x y n).disp } Reg.vf (flagByte (s.drawing x y n).hit))
      else .fault .outOfBoundsAccess := by
  rw [execDrw, readBlock_eq, ite_andThen]
  rfl

/-- A screen pixel that a 1 bit of the sprite lands on, in the numbers of R162. -/
def State.touches (s : State) (x y : Reg) (n : Nat) (px : Fin 64) (py : Fin 32) : Prop :=
  ∃ r < n, ∃ c < 8, (s.mem.read (s.base + r)).getLsbD (7 - c) = true ∧
    px.val = ((s.reg x).toNat + c) % 64 ∧ py.val = ((s.reg y).toNat + r) % 32

theorem spriteOn_bytesAt (s : State) (x y : Reg) (n : Nat) (px : Fin 64) (py : Fin 32) :
    spriteOn (s.reg x).toNat (s.reg y).toNat 0 (s.bytesAt n) px py ↔ s.touches x y n px py := by
  simp only [spriteOn, State.touches, bytesAt_length, bytesAt_getElem, spriteBit, screenCol, screenRow, Fin.ext_iff,
    Nat.zero_add]
  constructor
  · rintro ⟨r, hr, hy, c, hc, hb, hx⟩
    exact ⟨r, hr, c, hc, hb, hx, hy⟩
  · rintro ⟨r, hr, c, hc, hb, hx, hy⟩
    exact ⟨r, hr, hy, c, hc, hb, hx⟩

open Classical in
/-- The drawing inverts exactly the touched pixels. -/
theorem drawing_pixel (s : State) (x y : Reg) {n : Nat} (hn : n < 16) (px : Fin 64) (py : Fin 32) :
    (s.drawing x y n).disp.pixel px py = (s.disp.pixel px py ^^ decide (s.touches x y n px py)) := by
  rw [State.drawing, plotRows_pixel _ _ _ _ _ (by simp; omega)]
  simp only [spriteOn_bytesAt]

open Classical in
/-- The drawing's collision mark: some touched pixel was on. -/
theorem drawing_hit (s : State) (x y : Reg) {n : Nat} (hn : n < 16) :
    (s.drawing x y n).hit = decide (∃ px py, s.touches x y n px py ∧ s.disp.pixel px py = true) := by
  rw [State.drawing, plotRows_hit _ _ _ _ _ (by simp; omega)]
  simp only [spriteOn_bytesAt, Bool.false_or]

/-! ### The cycle (R80) -/

/-- Fetch and decode, in the order of their checks. -/
theorem nextInstr_eq (s : State) :
    s.nextInstr =
      if s.pc.toNat ≤ 0xFFE then
        match decode (wordOfBytes (s.mem.read s.pc.toNat) (s.mem.read (s.pc.toNat + 1))) with
        | .error _ => .error .invalidOpcode
        | .ok i => .ok i
      else .error .outOfBoundsAccess := by
  by_cases h : s.pc.toNat ≤ 0xFFE
  · simp only [State.nextInstr, fetch_eq, if_pos h] <;> rfl
  · simp only [State.nextInstr, fetch_eq, if_neg h]

/-- The instruction at PC is the one its two bytes decode to (R80). -/
theorem nextInstr_of_decode {s : State} {i : Instr} (hp : s.pc.toNat ≤ 0xFFE)
    (h : decode (s.mem.read s.pc.toNat ++ s.mem.read (s.pc.toNat + 1)) = .ok i) : s.nextInstr = .ok i := by
  rw [nextInstr_eq, if_pos hp, show wordOfBytes _ _ = _ ++ _ from rfl, h]

/-- A word at PC that decodes to nothing (R83). -/
theorem nextInstr_of_invalid {s : State} {e : DecodeError} (hp : s.pc.toNat ≤ 0xFFE)
    (h : decode (s.mem.read s.pc.toNat ++ s.mem.read (s.pc.toNat + 1)) = .error e) :
    s.nextInstr = .error .invalidOpcode := by
  rw [nextInstr_eq, if_pos hp, show wordOfBytes _ _ = _ ++ _ from rfl, h]

/-- Past an instruction that was fetched, PC does not wrap (R84). -/
theorem advance_pc_toNat {s : State} (hp : s.pc.toNat ≤ 0xFFE) : (s.pc + 2#16).toNat = s.pc.toNat + 2 := by
  rw [BitVec.toNat_add, show (2#16).toNat = 2 from rfl]
  omega

/-- An instruction was fetched from inside memory (R82). -/
theorem pc_le_of_nextInstr {s : State} {i : Instr} (h : s.nextInstr = .ok i) : s.pc.toNat ≤ 0xFFE := by
  by_contra hp
  rw [nextInstr_eq, if_neg hp] at h
  cases h

/-- What is fetched depends on PC and memory alone. -/
theorem nextInstr_congr {s t : State} (hp : t.pc = s.pc) (hm : t.mem = s.mem) : t.nextInstr = s.nextInstr := by
  simp only [State.nextInstr, State.fetch, hp, hm]

theorem step_of_wait {s : State} {r : Reg} (h : s.wait = some r) : step s = .next s := by
  simp only [step, tick, h]

theorem step_of_running {s : State} (h : s.wait = none) :
    step s = andThen s.nextInstr fun i => exec i s.advance := by
  simp only [step, tick, h]

/-- A step that answers a next state did nothing while a key was awaited, or ran the decoded instruction. -/
theorem step_next {s t : State} (h : step s = .next t) :
    (∃ r, s.wait = some r ∧ t = s) ∨ (s.wait = none ∧ ∃ i, s.nextInstr = .ok i ∧ exec i s.advance = .next t) := by
  cases hw : s.wait with
  | some r =>
    rw [step_of_wait hw] at h
    exact .inl ⟨r, rfl, by cases h; rfl⟩
  | none =>
    rw [step_of_running hw] at h
    exact .inr ⟨rfl, andThen_next h⟩

/-- A step that faults was Running, and the fault is the fetch's, the decoder's or the instruction's own. -/
theorem step_fault {s : State} {f : Fault} (h : step s = .fault f) :
    s.wait = none ∧ (s.nextInstr = .error f ∨ ∃ i, s.nextInstr = .ok i ∧ exec i s.advance = .fault f) := by
  cases hw : s.wait with
  | some r => rw [step_of_wait hw] at h; cases h
  | none =>
    rw [step_of_running hw] at h
    exact ⟨rfl, andThen_fault h⟩

/-! ### Events (R4) -/

@[simp] theorem commit_next (s t : State) : commit s (.next t) = (t, .ok) := rfl
@[simp] theorem commit_fault (s : State) (f : Fault) : commit s (.fault f) = (s, .fault f) := rfl
@[simp] theorem commit_refused (s : State) (r : Refusal) : commit s (.refused r) = (s, .refused r) := rfl

@[simp] theorem deliverAll_nil (s : State) : deliverAll [] s = (s, []) := rfl
theorem deliverAll_cons (e : Event) (es : List Event) (s : State) :
    (deliverAll (e :: es) s).1 = (deliverAll es (deliver e s).1).1 := rfl

/-! ### Histories (R5) -/

@[simp] theorem stateAt_zero (h : History) (s : State) : stateAt h s 0 = s := rfl
theorem stateAt_succ (h : History) (s : State) (n : Nat) : stateAt h s (n + 1) = (deliver (h n) (stateAt h s n)).1 := rfl

/-- A finite history is its parts, one after the other. -/
theorem deliverAll_append (es fs : List Event) (s : State) :
    deliverAll (es ++ fs) s =
      ((deliverAll fs (deliverAll es s).1).1, (deliverAll es s).2 ++ (deliverAll fs (deliverAll es s).1).2) := by
  induction es generalizing s with
  | nil => rfl
  | cons e es ih => simp only [List.cons_append, deliverAll, ih]

/-- The first `n` events of an infinite history are a finite history: the same state after them, the same answers. -/
theorem deliverAll_range (h : History) (s : State) (n : Nat) :
    deliverAll ((List.range n).map h) s = (stateAt h s n, (List.range n).map (responseAt h s)) := by
  induction n with
  | zero => rfl
  | succ n ih => simp only [List.range_succ, List.map_append, deliverAll_append, ih]; rfl

/-- What every event keeps holds throughout an infinite history. -/
theorem stateAt_induction {P : State → Prop} (h : History) (s : State) (h0 : P s)
    (hstep : ∀ e t, P t → P (deliver e t).1) (n : Nat) : P (stateAt h s n) := by
  induction n with
  | zero => exact h0
  | succ n ih => exact hstep _ _ ih

/-! ### LOAD, the timers and KEYPRESS in closed form -/

/-- LOAD answers exactly for a ROM that fits (R243). -/
theorem load_eq (rom : List Byte) (s : State) :
    load rom s =
      if rom.length ≤ 3584 then
        .next { s with
          mem := storeAll s.mem 0x200 rom, pc := BitVec.ofNat 16 0x200, v := Vector.replicate 16 0, i := 0, sp := 0
          dt := 0, st := 0, disp := blankDisplay, keys := Vector.replicate 16 false, wait := none }
      else .fault .romTooLarge := by
  by_cases h : rom.length ≤ 3584
  · have h1 : ¬rom.length > Config.romMax := by simp [Config.romMax]; omega
    rw [load, if_neg h1, if_pos h, writeBlock_eq, if_pos (by simp [Config.progBase]; omega)]
    rfl
  · have h1 : rom.length > Config.romMax := by simp [Config.romMax]; omega
    rw [load, if_pos h1, if_neg h]
    rfl

/-- A countdown is the truncated subtraction of 1 (R220). -/
@[simp] theorem countDown_toNat (b : Byte) : (countDown b).toNat = b.toNat - 1 := by
  simp only [countDown]
  split
  · rw [BitVec.toNat_sub_of_le (by rw [BitVec.le_def]; simp; omega)]
    rfl
  · omega

/-- KEYPRESS on an existing key (R224, R225). -/
theorem keypress_of_lt {key : Nat} (h : key < 16) (pressed : Bool) (s : State) :
    keypress key pressed s =
      match s.wait with
      | some r =>
        if pressed then
          .next { s with v := s.v.set r.val (BitVec.ofNat 8 key), keys := s.keys.set key pressed, wait := none }
        else .next { s with keys := s.keys.set key pressed }
      | none => .next { s with keys := s.keys.set key pressed } := by
  cases hw : s.wait with
  | none => simp only [keypress, dif_pos h, hw]
  | some r => cases pressed <;> simp [keypress, h, hw, State.setReg]

theorem keypress_of_ge {key : Nat} (h : ¬key < 16) (pressed : Bool) (s : State) :
    keypress key pressed s = .fault .invalidKeyCode := dif_neg h

end Sys2Proof.Machine
end

