-- ==== Sys2Proof/Laws/PerInstr.lean ====
section
/-! SUPPORT. Laws/PerInstr.lean: statements made once per constructor. `MatchesRow`: the word of a well-formed instruction
takes the instruction's own row of the opcode table (R62). -/

namespace Sys2Proof.Laws.MatchesRow

/-- The instruction's row is one of the 34, and its word meets the row's mask and match. -/
def Statement (i : Instr) : Prop :=
  i.WellFormed = true → i.pattern ∈ opcodeTable ∧ i.pattern.holds (encode i) = true

/-- Format A, mask F000. -/
theorem holds_A {f : Word} (op : Nibble) (nnn : Imm12) (h : formatA op 0 = f) :
    Pattern.holds ⟨0xF000#16, f⟩ (formatA op nnn) = true := by
  rw [Pattern.holds, and_maskA, beq_iff_eq]
  simpa using h

/-- Format XK, mask F000. -/
theorem holds_XK {f : Word} (op : Nibble) (x : Reg) (nn : Byte) (h : formatA op 0 = f) :
    Pattern.holds ⟨0xF000#16, f⟩ (formatXK op x nn) = true := by
  rw [Pattern.holds, and_maskA, beq_iff_eq]
  simpa using h

/-- Format XYN, mask F000. -/
theorem holds_XYN {f : Word} (op n : Nibble) (x y : Reg) (h : formatA op 0 = f) :
    Pattern.holds ⟨0xF000#16, f⟩ (formatXYN op x y n) = true := by
  rw [Pattern.holds, and_maskA, beq_iff_eq]
  simpa using h

/-- Format XY, mask F00F. -/
theorem holds_XY {f : Word} (op n : Nibble) (x y : Reg) (h : formatXYN op 0 0 n = f) :
    Pattern.holds ⟨0xF00F#16, f⟩ (formatXYN op x y n) = true := by
  rw [Pattern.holds, and_maskXY, beq_iff_eq]
  simpa using h

/-- Format XF, mask F0FF. -/
theorem holds_XF {f : Word} (op : Nibble) (x : Reg) (nn : Byte) (h : formatXK op 0 nn = f) :
    Pattern.holds ⟨0xF0FF#16, f⟩ (formatXK op x nn) = true := by
  rw [Pattern.holds, and_maskXF, beq_iff_eq]
  simpa using h

/-- Row `k` of the table is in the table. -/
theorem row (k : Fin 34) : opcodeTable[k.val]'(k.isLt) ∈ opcodeTable := List.getElem_mem _

theorem cls : Statement .cls := fun _ => ⟨row 0, by decide⟩
theorem ret : Statement .ret := fun _ => ⟨row 1, by decide⟩
theorem jp (nnn : Imm12) : Statement (.jp nnn) := fun _ => ⟨row 2, holds_A _ _ (by decide)⟩
theorem call (nnn : Imm12) : Statement (.call nnn) := fun _ => ⟨row 3, holds_A _ _ (by decide)⟩
theorem seImm (x : Reg) (nn : Byte) : Statement (.seImm x nn) := fun _ => ⟨row 4, holds_XK _ _ _ (by decide)⟩
theorem sneImm (x : Reg) (nn : Byte) : Statement (.sneImm x nn) := fun _ => ⟨row 5, holds_XK _ _ _ (by decide)⟩
theorem seReg (x y : Reg) : Statement (.seReg x y) := fun _ => ⟨row 6, holds_XY _ _ _ _ (by decide)⟩
theorem ldImm (x : Reg) (nn : Byte) : Statement (.ldImm x nn) := fun _ => ⟨row 7, holds_XK _ _ _ (by decide)⟩
theorem addImm (x : Reg) (nn : Byte) : Statement (.addImm x nn) := fun _ => ⟨row 8, holds_XK _ _ _ (by decide)⟩
theorem ldReg (x y : Reg) : Statement (.ldReg x y) := fun _ => ⟨row 9, holds_XY _ _ _ _ (by decide)⟩
theorem orReg (x y : Reg) : Statement (.orReg x y) := fun _ => ⟨row 10, holds_XY _ _ _ _ (by decide)⟩
theorem andReg (x y : Reg) : Statement (.andReg x y) := fun _ => ⟨row 11, holds_XY _ _ _ _ (by decide)⟩
theorem xorReg (x y : Reg) : Statement (.xorReg x y) := fun _ => ⟨row 12, holds_XY _ _ _ _ (by decide)⟩
theorem addReg (x y : Reg) : Statement (.addReg x y) := fun _ => ⟨row 13, holds_XY _ _ _ _ (by decide)⟩
theorem subReg (x y : Reg) : Statement (.subReg x y) := fun _ => ⟨row 14, holds_XY _ _ _ _ (by decide)⟩
theorem shr (x y : Reg) : Statement (.shr x y) := fun _ => ⟨row 15, holds_XY _ _ _ _ (by decide)⟩
theorem subnReg (x y : Reg) : Statement (.subnReg x y) := fun _ => ⟨row 16, holds_XY _ _ _ _ (by decide)⟩
theorem shl (x y : Reg) : Statement (.shl x y) := fun _ => ⟨row 17, holds_XY _ _ _ _ (by decide)⟩
theorem sneReg (x y : Reg) : Statement (.sneReg x y) := fun _ => ⟨row 18, holds_XY _ _ _ _ (by decide)⟩
theorem ldI (nnn : Imm12) : Statement (.ldI nnn) := fun _ => ⟨row 19, holds_A _ _ (by decide)⟩
theorem jpV0 (nnn : Imm12) : Statement (.jpV0 nnn) := fun _ => ⟨row 20, holds_A _ _ (by decide)⟩
theorem rnd (x : Reg) (nn : Byte) : Statement (.rnd x nn) := fun _ => ⟨row 21, holds_XK _ _ _ (by decide)⟩
theorem drw (x y : Reg) (n : Nat) : Statement (.drw x y n) := fun _ => ⟨row 22, holds_XYN _ _ _ _ (by decide)⟩
theorem skp (x : Reg) : Statement (.skp x) := fun _ => ⟨row 23, holds_XF _ _ _ (by decide)⟩
theorem sknp (x : Reg) : Statement (.sknp x) := fun _ => ⟨row 24, holds_XF _ _ _ (by decide)⟩
theorem ldVxDt (x : Reg) : Statement (.ldVxDt x) := fun _ => ⟨row 25, holds_XF _ _ _ (by decide)⟩
theorem ldVxK (x : Reg) : Statement (.ldVxK x) := fun _ => ⟨row 26, holds_XF _ _ _ (by decide)⟩
theorem ldDtVx (x : Reg) : Statement (.ldDtVx x) := fun _ => ⟨row 27, holds_XF _ _ _ (by decide)⟩
theorem ldStVx (x : Reg) : Statement (.ldStVx x) := fun _ => ⟨row 28, holds_XF _ _ _ (by decide)⟩
theorem addI (x : Reg) : Statement (.addI x) := fun _ => ⟨row 29, holds_XF _ _ _ (by decide)⟩
theorem ldF (x : Reg) : Statement (.ldF x) := fun _ => ⟨row 30, holds_XF _ _ _ (by decide)⟩
theorem ldB (x : Reg) : Statement (.ldB x) := fun _ => ⟨row 31, holds_XF _ _ _ (by decide)⟩
theorem stRegs (x : Reg) : Statement (.stRegs x) := fun _ => ⟨row 32, holds_XF _ _ _ (by decide)⟩
theorem ldRegs (x : Reg) : Statement (.ldRegs x) := fun _ => ⟨row 33, holds_XF _ _ _ (by decide)⟩

end Sys2Proof.Laws.MatchesRow
end

