-- ==== Sys2Proof/Machine/Assembly.lean ====
section
/-! DEFINITION. Machine/Assembly.lean: the assembler text of an instruction (R68): mnemonic, then operands, destination
first. It carries no meaning beyond naming a row of R62 and its fields; nothing else in the model reads it. -/

namespace Sys2Proof.Assembly

/-- One hexadecimal digit. -/
def hexDigit (d : Fin 16) : String :=
  ["0", "1", "2", "3", "4", "5", "6", "7", "8", "9", "A", "B", "C", "D", "E", "F"].getD d.val ""

/-- `Vx`: `V` and one hexadecimal digit. -/
def regText (x : Reg) : String := "V" ++ hexDigit x

/-- A byte, `0x` and two digits. -/
def byteText (b : Byte) : String := "0x" ++ hexDigit (b.extractLsb' 4 4).toFin ++ hexDigit (b.extractLsb' 0 4).toFin

/-- A 12-bit address, `0x` and three digits. -/
def addrText (a : Imm12) : String :=
  "0x" ++ hexDigit (a.extractLsb' 8 4).toFin ++ hexDigit (a.extractLsb' 4 4).toFin ++ hexDigit (a.extractLsb' 0 4).toFin

/-- A sprite height, in hexadecimal. -/
def rowsText (n : Nat) : String := "0x" ++ hexDigit ⟨n % 16, Nat.mod_lt _ (by decide)⟩

/-- A mnemonic with one operand. -/
def one (m a : String) : String := m ++ " " ++ a

/-- A mnemonic with two operands, the destination first. -/
def two (m a b : String) : String := m ++ " " ++ a ++ ", " ++ b

/-- The text of an instruction, in the spelling of R62's mnemonic column. -/
def text : Instr → String
  | .cls => "CLS"
  | .ret => "RET"
  | .jp nnn => one "JP" (addrText nnn)
  | .call nnn => one "CALL" (addrText nnn)
  | .seImm x nn => two "SE" (regText x) (byteText nn)
  | .sneImm x nn => two "SNE" (regText x) (byteText nn)
  | .seReg x y => two "SE" (regText x) (regText y)
  | .ldImm x nn => two "LD" (regText x) (byteText nn)
  | .addImm x nn => two "ADD" (regText x) (byteText nn)
  | .ldReg x y => two "LD" (regText x) (regText y)
  | .orReg x y => two "OR" (regText x) (regText y)
  | .andReg x y => two "AND" (regText x) (regText y)
  | .xorReg x y => two "XOR" (regText x) (regText y)
  | .addReg x y => two "ADD" (regText x) (regText y)
  | .subReg x y => two "SUB" (regText x) (regText y)
  | .shr x _ => one "SHR" (regText x)
  | .subnReg x y => two "SUBN" (regText x) (regText y)
  | .shl x _ => one "SHL" (regText x)
  | .sneReg x y => two "SNE" (regText x) (regText y)
  | .ldI nnn => two "LD" "I" (addrText nnn)
  | .jpV0 nnn => two "JP" "V0" (addrText nnn)
  | .rnd x nn => two "RND" (regText x) (byteText nn)
  | .drw x y n => two "DRW" (regText x) (regText y) ++ ", " ++ rowsText n
  | .skp x => one "SKP" (regText x)
  | .sknp x => one "SKNP" (regText x)
  | .ldVxDt x => two "LD" (regText x) "DT"
  | .ldVxK x => two "LD" (regText x) "K"
  | .ldDtVx x => two "LD" "DT" (regText x)
  | .ldStVx x => two "LD" "ST" (regText x)
  | .addI x => two "ADD" "I" (regText x)
  | .ldF x => two "LD" "F" (regText x)
  | .ldB x => two "LD" "B" (regText x)
  | .stRegs x => two "LD" "[I]" (regText x)
  | .ldRegs x => two "LD" (regText x) "[I]"

end Sys2Proof.Assembly
end

