-- ==== Sys2Proof/Tests/Slice0.lean ====
section
/-! SUPPORT. Tests/Slice0.lean: small tests, their expected results from the spec (the rules and 95_test_vectors.md, whose
number stands in the name or beside the test), and a named witness for the hypotheses of each obligation. -/

namespace Sys2Proof.Tests

open Sys2Proof.Machine

/-! ### Well-formedness: the one check refuses an ill-formed term -/

theorem test_wellFormed_drw_15 : (Instr.drw 1 2 15).WellFormed = true := by decide
theorem test_illFormed_drw_16 : (Instr.drw 1 2 16).WellFormed = false := by decide

/-! ### Decoding: a word of every instruction, written out from its pattern (R62) -/

theorem test_decode_cls : decode 0b0000000011100000#16 = .ok .cls := by decide
theorem test_decode_ret : decode 0b0000000011101110#16 = .ok .ret := by decide
theorem test_decode_jp : decode 0b0001001000110100#16 = .ok (.jp 0x234) := by decide
theorem test_decode_call : decode 0b0010101010111100#16 = .ok (.call 0xABC) := by decide
theorem test_decode_seImm : decode 0b0011001100101010#16 = .ok (.seImm 3 0x2A) := by decide
theorem test_decode_sneImm : decode 0b0100001100101010#16 = .ok (.sneImm 3 0x2A) := by decide
theorem test_decode_seReg : decode 0b0101000100100000#16 = .ok (.seReg 1 2) := by decide
theorem test_decode_ldImm : decode 0b0110101000000101#16 = .ok (.ldImm 10 0x05) := by decide
theorem test_decode_addImm : decode 0b0111000011111111#16 = .ok (.addImm 0 0xFF) := by decide
theorem test_decode_ldReg : decode 0b1000000100100000#16 = .ok (.ldReg 1 2) := by decide
theorem test_decode_orReg : decode 0b1000000100100001#16 = .ok (.orReg 1 2) := by decide
theorem test_decode_andReg : decode 0b1000000100100010#16 = .ok (.andReg 1 2) := by decide
theorem test_decode_xorReg : decode 0b1000000100100011#16 = .ok (.xorReg 1 2) := by decide
theorem test_decode_addReg : decode 0b1000000100100100#16 = .ok (.addReg 1 2) := by decide
theorem test_decode_subReg : decode 0b1000000100100101#16 = .ok (.subReg 1 2) := by decide
theorem test_decode_shr : decode 0b1000000100100110#16 = .ok (.shr 1 2) := by decide
theorem test_decode_subnReg : decode 0b1000000100100111#16 = .ok (.subnReg 1 2) := by decide
theorem test_decode_shl : decode 0b1000000100101110#16 = .ok (.shl 1 2) := by decide
theorem test_decode_sneReg : decode 0b1001000100100000#16 = .ok (.sneReg 1 2) := by decide
theorem test_decode_ldI : decode 0b1010001011110000#16 = .ok (.ldI 0x2F0) := by decide
theorem test_decode_jpV0 : decode 0b1011001100000000#16 = .ok (.jpV0 0x300) := by decide
theorem test_decode_rnd : decode 0b1100001100001111#16 = .ok (.rnd 3 0x0F) := by decide
theorem test_decode_drw : decode 0b1101000100100010#16 = .ok (.drw 1 2 2) := by decide
theorem test_decode_skp : decode 0b1110000110011110#16 = .ok (.skp 1) := by decide
theorem test_decode_sknp : decode 0b1110000110100001#16 = .ok (.sknp 1) := by decide
theorem test_decode_ldVxDt : decode 0b1111001000000111#16 = .ok (.ldVxDt 2) := by decide
theorem test_decode_ldVxK : decode 0b1111000100001010#16 = .ok (.ldVxK 1) := by decide
theorem test_decode_ldDtVx : decode 0b1111000100010101#16 = .ok (.ldDtVx 1) := by decide
theorem test_decode_ldStVx : decode 0b1111001100011000#16 = .ok (.ldStVx 3) := by decide
theorem test_decode_addI : decode 0b1111001000011110#16 = .ok (.addI 2) := by decide
theorem test_decode_ldF : decode 0b1111000000101001#16 = .ok (.ldF 0) := by decide
theorem test_decode_ldB : decode 0b1111000000110011#16 = .ok (.ldB 0) := by decide
theorem test_decode_stRegs : decode 0b1111000101010101#16 = .ok (.stRegs 1) := by decide
theorem test_decode_ldRegs : decode 0b1111001001100101#16 = .ok (.ldRegs 2) := by decide

/-- T2, T3, T4, T5, T6, T7, T8, T9: near misses, each rejected under its own name. -/
theorem test_decode_invalid :
    decode 0x056A#16 = .error .invalidMajor0 ∧ decode 0x0000#16 = .error .invalidMajor0 ∧
    decode 0x5121#16 = .error .invalidMajor5 ∧ decode 0x9121#16 = .error .invalidMajor9 ∧
    decode 0x8128#16 = .error .invalidMajor8 ∧ decode 0x812F#16 = .error .invalidMajor8 ∧
    decode 0xE19F#16 = .error .invalidMajorE ∧ decode 0xF175#16 = .error .invalidMajorF := by decide

/-- R41: the byte at the lower address is the high one; one byte is too few. -/
theorem test_decodeBytes : decodeBytes [0x6A, 0x05, 0x12] = .ok (.ldImm 10 5, [0x12]) ∧
    decodeBytes [0x6A] = .error .truncated := by decide

theorem test_decodeTableWord : decodeTableWord 16 0x6A05 = some (.ldImm 10 5) ∧ decodeTableWord 16 0x5121 = none := by
  decide

/-- Words and their text in the listings of 95_test_vectors.md (P1, P2, P3, P4, P7; numbers in hexadecimal). -/
theorem test_text : [0x70FF#16, 0x3000, 0x120C, 0xF033, 0xF265, 0xD122, 0xF10A, 0xE19E, 0xBFFF].map
    (fun w => (decode w).toOption.map Assembly.text) =
    ["ADD V0, 0xFF", "SE V0, 0x00", "JP 0x20C", "LD B, V0", "LD V2, [I]", "DRW V1, V2, 0x2", "LD V1, K", "SKP V1",
      "JP V0, 0xFFF"].map some := by decide

/-! ### One step of each instruction -/

/-- A state after RESET and LOAD of nothing, with a byte on the `rand8` input. -/
def ready : State := { State.reset with pc := 0x200, rand8 := 0xA7 }

/-- `s` with the word `w` at 0x200. -/
def State.word (s : State) (w : Word) : State :=
  { s with mem := (s.mem.write 0x200 (hiByte w)).write 0x201 (loByte w) }

/-- `f` of the state after one step with the word `w` at 0x200. -/
def after {α : Type} (s : State) (w : Word) (f : State → α) : Option α :=
  match step (State.word s w) with
  | .next t => some (f t)
  | _ => none

/-- The fault of that step, if it faults. -/
def faultOf (s : State) (w : Word) : Option Fault :=
  match step (State.word s w) with
  | .fault f => some f
  | _ => none

/-- `ready` with two registers set. -/
def regs (x : Reg) (a : Byte) (y : Reg) (b : Byte) : State := (ready.setReg x a).setReg y b

/-- `ready` with `SP` and the entry under it set. -/
def stacked (sp : Fin 17) (k : Fin 16) (w : Word) : State := { ready with sp := sp, stack := ready.stack.set k.val w }

/-- `ready` with `I` and one byte of memory set. -/
def sprite (i : Word) (b : Byte) : State := { ready with i := i, mem := ready.mem.write i.toNat b }

theorem test_jp_T20 : after ready 0x1234 (·.pc) = some 0x234 := by decide
theorem test_call_T23 : after ready 0x2ABC (fun t => (t.stack[0], t.sp, t.pc)) = some (0x202, 1, 0xABC) := by decide
theorem test_call_T24 : faultOf { ready with sp := 16 } 0x2ABC = some .stackOverflow := by decide
theorem test_ret_T26 : after (stacked 2 1 0x30A) 0x00EE (fun t => (t.pc, t.sp)) = some (0x30A, 1) := by decide
theorem test_ret_T25 : faultOf ready 0x00EE = some .stackUnderflow := by decide
theorem test_jpV0_T28 : after (regs 0 0xFF 3 0x10) 0xBFFF (·.pc) = some 0x10FE := by decide
theorem test_jpV0_T29 : after (regs 0 0x01 3 0x10) 0xB300 (·.pc) = some 0x301 := by decide
theorem test_seImm_T30 : after (regs 3 0x2A 1 0) 0x332A (·.pc) = some 0x204 ∧
    after (regs 3 0x2A 1 0) 0x332B (·.pc) = some 0x202 := by decide
theorem test_sneImm_T31 : after (regs 3 0x2A 1 0) 0x432A (·.pc) = some 0x202 ∧
    after (regs 3 0x2A 1 0) 0x432B (·.pc) = some 0x204 := by decide
theorem test_seReg_T32 : after (regs 1 7 2 7) 0x5120 (·.pc) = some 0x204 ∧
    after (regs 1 7 2 8) 0x5120 (·.pc) = some 0x202 := by decide
theorem test_sneReg_T33 : after (regs 1 7 2 7) 0x9120 (·.pc) = some 0x202 ∧
    after (regs 1 7 2 8) 0x9120 (·.pc) = some 0x204 := by decide
theorem test_ldImm_T1 : after ready 0x6A05 (fun t => (t.reg 10, t.pc)) = some (5, 0x202) := by decide
theorem test_addImm_T41 : after (regs 0 0xFF 15 9) 0x7001 (fun t => (t.reg 0, t.reg 15)) = some (0, 9) := by decide
theorem test_ldReg_T44 : after (regs 2 0x33 1 0) 0x8120 (·.reg 1) = some 0x33 := by decide
theorem test_orReg_T45 : after ((regs 1 0x0F 2 0xF0).setReg 15 1) 0x8121 (fun t => (t.reg 1, t.reg 15)) = some (0xFF, 1) := by
  decide
theorem test_andReg_T46 : after ((regs 1 0x3C 2 0x0F).setReg 15 1) 0x8122 (fun t => (t.reg 1, t.reg 15)) = some (0x0C, 1) := by
  decide
theorem test_xorReg_T47 : after ((regs 1 0xFF 2 0x0F).setReg 15 1) 0x8123 (fun t => (t.reg 1, t.reg 15)) = some (0xF0, 1) := by
  decide
theorem test_addReg_T49 : after (regs 1 0xF0 2 0x20) 0x8124 (fun t => (t.reg 1, t.reg 15)) = some (0x10, 1) := by decide
theorem test_addReg_T55 : after (regs 15 0x10 1 0x20) 0x8F14 (·.reg 15) = some 0 := by decide
theorem test_subReg_T58 : after (regs 1 0x10 2 0x20) 0x8125 (fun t => (t.reg 1, t.reg 15)) = some (0xF0, 0) := by decide
theorem test_subReg_T59 : after (regs 1 0x42 2 0x42) 0x8125 (fun t => (t.reg 1, t.reg 15)) = some (0, 1) := by decide
theorem test_shr_T62 : after (regs 1 0x05 2 0xAA) 0x8126 (fun t => (t.reg 1, t.reg 15, t.reg 2)) = some (2, 1, 0xAA) := by
  decide
theorem test_subnReg_T67 : after (regs 1 0x10 2 0x20) 0x8127 (fun t => (t.reg 1, t.reg 15)) = some (0x10, 1) := by decide
theorem test_subnReg_T68 : after (regs 1 0x20 2 0x10) 0x8127 (fun t => (t.reg 1, t.reg 15)) = some (0xF0, 0) := by decide
theorem test_shl_T70 : after (regs 1 0x81 2 0xAA) 0x812E (fun t => (t.reg 1, t.reg 15, t.reg 2)) = some (2, 1, 0xAA) := by
  decide
theorem test_shl_T73 : after (regs 15 0x80 1 0) 0x8FFE (·.reg 15) = some 1 := by decide
theorem test_rnd_T74 : after ready 0xC30F (·.reg 3) = some 0x07 := by decide
theorem test_ldI_T80 : after ready 0xAFFF (·.i) = some 0x0FFF := by decide
theorem test_addI_T82 : after (State.setReg { ready with i := 0x0FFF } 0 0xFF) 0xF01E (fun t => (t.i, t.reg 15)) =
    some (0x10FE, 0) := by decide
theorem test_addI_T83 : after (State.setReg { ready with i := 0xFFFF } 0 1) 0xF01E (·.i) = some 0 := by decide
/-- T85, T86, T87, for the two places of the font that they name. -/
theorem test_glyphAddress_T85 : glyphAddressFor 0 (lowNibble 0x0A) = 0x0032 ∧ glyphAddressFor 0 (lowNibble 0xFA) = 0x0032 ∧
    glyphAddressFor 0x050 (lowNibble 0x0F) = 0x009B := by decide
theorem test_ldB_T88 : after (State.setReg { ready with i := 0x300 } 0 254) 0xF033
    (fun t => (t.mem.read 0x300, t.mem.read 0x301, t.mem.read 0x302)) = some (2, 5, 4) := by decide
theorem test_ldB_T91 : faultOf { ready with i := 0x0FFE } 0xF033 = some .outOfBoundsAccess := by decide
theorem test_stRegs_E4 : after (State.setReg { ready with i := 0x300 } 0 0xAB) 0xF055 (fun t => (t.mem.read 0x300, t.i)) =
    some (0xAB, 0x300) := by decide
theorem test_stRegs_T98 : faultOf { ready with i := 0xFFFF } 0xF155 = some .outOfBoundsAccess := by decide
theorem test_ldRegs_T95 : after { ready with i := 0x300, mem := [(0x300, 2), (0x301, 5), (0x302, 4)], v := ready.v.set 3 0x77 }
    0xF265 (fun t => (t.reg 0, t.reg 1, t.reg 2, t.reg 3)) = some (2, 5, 4, 0x77) := by decide
theorem test_ldRegs_T97 : faultOf { ready with i := 0x1000 } 0xF065 = some .outOfBoundsAccess := by decide
theorem test_cls_T100 : after { ready with disp := blankDisplay.flip 5 6 } 0x00E0 (·.disp.pixel 5 6) = some false := by decide
theorem test_drw_T102 : after (sprite 0x300 0x01) 0xD011
    (fun t => (t.disp.pixel 7 0, t.disp.pixel 0 0, t.reg 15)) = some (true, false, 0) := by decide
theorem test_drw_T107 : after { sprite 0x300 0xC0 with disp := blankDisplay.flip 0 0 } 0xD011
    (fun t => (t.disp.pixel 0 0, t.disp.pixel 1 0, t.reg 15)) = some (false, true, 1) := by decide
theorem test_skp_T123 : after { regs 1 0x17 2 0 with keys := ready.keys.set 7 true } 0xE19E (·.pc) = some 0x204 := by decide
theorem test_sknp_T122 : after (regs 1 7 2 0) 0xE1A1 (·.pc) = some 0x204 := by decide
theorem test_ldVxK_T124 : after ready 0xF10A (fun t => (t.pc, t.wait, t.reg 1)) = some (0x202, some 1, 0) := by decide
theorem test_ldVxDt_T132 : after { ready with dt := 4 } 0xF207 (fun t => (t.reg 2, t.dt)) = some (4, 4) := by decide
theorem test_ldDtVx_T133 : after (regs 1 7 2 0) 0xF115 (·.dt) = some 7 := by decide
theorem test_ldStVx_T134 : after (regs 3 0x1E 2 0) 0xF318 (fun t => (getSound t, tone t)) = some (0x1E, true) := by decide

/-- T10, T13: a fetch out of range faults; while waiting nothing is fetched. -/
theorem test_fetch_T10 : (match step { ready with pc := 0xFFF } with | .fault f => some f | _ => none) =
    some .outOfBoundsAccess := by decide
theorem test_wait_T13 : step { ready with pc := 0x1000, wait := some 1 } = .next { ready with pc := 0x1000, wait := some 1 } :=
  rfl

/-! ### Events and reset -/

/-- T140, with the font at 0 and at 0x050 (R23): first and last glyph, and the byte after the font. -/
theorem test_font_T140 : (List.range 5).map (resetByteFor 0) = [0xF0, 0x90, 0x90, 0x90, 0xF0] ∧
    (List.range 6).map (fun k => resetByteFor 0x050 (0x050 + 75 + k)) = [0xF0, 0x80, 0xF0, 0x80, 0x80, 0x00] ∧
    resetByteFor 0x050 0x04F = 0 ∧ resetByteFor 0x1B0 0x200 = 0 := by decide
/-- T143: a second LOAD keeps the tail of the first. -/
theorem test_load_T143 : (deliverAll [.load [0xAA, 0xBB, 0xCC, 0xDD], .load [0x11, 0x22]] ready).1.mem =
    [(0x200, 0x11), (0x201, 0x22), (0x202, 0xCC), (0x203, 0xDD)] := by decide
theorem test_tickTimers_T136 : (fun t => (t.dt, t.st)) (deliver .tickTimers { ready with st := 255 }).1 = (0, 254) := by decide
theorem test_keypress_T131 : (fun p => (p.1.reg 15, p.1.key 0, p.1.wait, p.2))
    (deliver (.keypress 0 true) { ready.setReg 15 3 with wait := some 15 }) = (0, true, none, .ok) := by decide
theorem test_keypress_T127 : (fun p => (p.1.wait, p.2)) (deliver (.keypress 16 true) { ready with wait := some 1 }) =
    (some 1, .fault .invalidKeyCode) := by decide
/-- R201's numbering. -/
theorem test_fault_codes : [Fault.romTooLarge, .invalidOpcode, .stackOverflow, .stackUnderflow, .outOfBoundsAccess,
    .invalidKeyCode].map Fault.code = [1, 2, 3, 4, 5, 6] := by decide
/-- The canonical form: writing back what an unlisted address reads as removes the entry (log 4). -/
theorem test_write_canonical : (Memory.write [(0x300, 7)] 0x300 0) = [] := by decide

/-! ### Witnesses: a state and operands that meet the hypotheses of each obligation, at the edges of their ranges -/

theorem witness_DecodeOfEncodeIsTheInstruction : (Instr.drw 15 15 15).WellFormed = true := by decide
theorem witness_EncodeOfDecodeIsTheWord : decode 0xDFFF#16 = .ok (.drw 15 15 15) := by decide
theorem witness_WordDecodesExactlyByItsOpcodeRow : decode 0x812E#16 = .ok (.shl 1 2) ∧
    (⟨0xF00F#16, 0x800E#16⟩ : Pattern) ∈ opcodeTable ∧ (⟨0xF00F#16, 0x800E#16⟩ : Pattern).holds 0x812E = true := by decide

/-- `ready` with the word `w` at 0x200. -/
def at200 (w : Word) : State := State.word ready w

theorem witness_StepRunsTheDecodedInstruction_waiting : ({ ready with wait := some 15 } : State).wait = some 15 := rfl
theorem witness_StepRunsTheDecodedInstruction_fetch : ({ ready with pc := 0xFFF } : State).wait = none ∧
    4096 < ({ ready with pc := 0xFFF } : State).pc.toNat + 2 := by decide
theorem witness_StepRunsTheDecodedInstruction_invalid : (at200 0x0000).wait = none ∧ (at200 0).pc.toNat + 2 ≤ 4096 ∧
    decode ((at200 0).mem.read 0x200 ++ (at200 0).mem.read 0x201) = .error .invalidMajor0 := by decide
/-- At the last address an instruction can be fetched from (R82). -/
theorem witness_StepRunsTheDecodedInstruction_runs :
    let s : State := { ready with pc := 0xFFE, mem := [(0xFFE, 0x6A), (0xFFF, 0x05)] }
    s.wait = none ∧ s.pc.toNat + 2 ≤ 4096 ∧
      decode (s.mem.read s.pc.toNat ++ s.mem.read (s.pc.toNat + 1)) = .ok (.ldImm 10 5) := by decide
theorem witness_StepRunsTheDecodedInstruction_next : ∃ t, step { at200 0x6A05 with rand8 := 1 } = .next t := ⟨_, rfl⟩
theorem witness_StepRunsTheDecodedInstruction_fault : step { at200 0x00EE with rand8 := 1 } = .fault .stackUnderflow := rfl

theorem witness_EveryInstructionLeavesPcAsListed_next : (at200 0xE1A1).wait = none ∧
    (at200 0xE1A1).nextInstr = .ok (.sknp 1) ∧ ∃ t, step (at200 0xE1A1) = .next t := ⟨rfl, by decide, _, rfl⟩
theorem witness_EveryInstructionLeavesPcAsListed_fault :
    deliver (.tick 0) (at200 0x00EE) = (at200 0x00EE, .fault .stackUnderflow) := rfl
theorem witness_EveryInstructionLeavesPcAsListed_waiting :
    deliver (.tick 0) { ready with wait := some 1 } = ({ ready with wait := some 1, rand8 := 0 }, .ok) := rfl
theorem witness_Rand8MattersOnlyForRnd (x : Reg) (nn : Byte) : (at200 0x6A05).nextInstr ≠ .ok (.rnd x nn) := by
  rw [show (at200 0x6A05).nextInstr = .ok (.ldImm 10 5) from by decide]
  simp
theorem witness_EndedRunStaysEnded : (at200 0x1200).Ended := ⟨rfl, 0x200, by decide, by decide⟩
theorem witness_EndedRunStaysEnded_events : (∃ t, tickTimers (at200 0x1200) = .next t) ∧
    ∃ t, keypress 15 true (at200 0x1200) = .next t := ⟨⟨_, rfl⟩, _, rfl⟩

theorem witness_CallPushesPcAndJumps : (stacked 15 0 0).sp.val < 16 := by decide
theorem witness_CallPushesPcAndJumps_full : let s := State.word (stacked 16 0 0) 0x2200
    s.sp.val = 16 ∧ s.wait = none ∧ s.nextInstr = .ok (.call 0x200) := by decide
theorem witness_RetPopsPc : (stacked 16 15 0x202).sp.val = (15 : Fin 16).val + 1 := by decide
theorem witness_RetPopsPc_empty : (at200 0x00EE).sp.val = 0 ∧ (at200 0x00EE).wait = none ∧
    (at200 0x00EE).nextInstr = .ok .ret := by decide
/-- E5 of 95_test_vectors.md, at depth 15. -/
theorem witness_CallThenRetComesBack :
    let s : State := { at200 0x2204 with sp := 15, mem := [(0x200, 0x22), (0x201, 0x04), (0x205, 0xEE)] }
    s.wait = none ∧ s.sp.val < 16 ∧ s.nextInstr = .ok (.call 0x204) ∧ (0x204#12).toNat + 2 ≤ 4096 ∧
      s.mem.read (0x204#12).toNat = 0x00 ∧ s.mem.read ((0x204#12).toNat + 1) = 0xEE := by decide
theorem witness_RndStoresTheMaskedInputByte : (at200 0xC3FF).wait = none ∧ (at200 0xC3FF).nextInstr = .ok (.rnd 3 0xFF) := by
  decide

theorem witness_BcdStoresThreeDigits : ({ ready with i := 0xFFD } : State).base + 3 ≤ 4096 ∧
    4096 < ({ ready with i := 0xFFE } : State).base + 3 := by decide
theorem witness_BlockStoreWritesRegistersUpToX : ({ ready with i := 0xFF0 } : State).base + (15 : Reg).val + 1 ≤ 4096 ∧
    4096 < ({ ready with i := 0xFF1 } : State).base + (15 : Reg).val + 1 := by decide
theorem witness_BlockLoadReadsRegistersUpToX : ({ ready with i := 0xFFF } : State).base + (0 : Reg).val + 1 ≤ 4096 ∧
    4096 < ({ ready with i := 0x1000 } : State).base + (0 : Reg).val + 1 := by decide
theorem witness_StoreThenLoadBringsRegistersBack : ({ ready with i := 0xFF0 } : State).base + (15 : Reg).val < 4096 := by decide
/-- P5 of 95_test_vectors.md. -/
theorem witness_StoredBytesAreFetchedNext : let s : State := { State.word (regs 0 0x12 1 0x08) 0xF155 with i := 0x202 }
    s.wait = none ∧ s.nextInstr = .ok (.stRegs 1) ∧ 1 ≤ (1 : Reg).val ∧ s.i = s.pc + 2 ∧ s.base + (1 : Reg).val < 4096 ∧
      decode (s.reg 0 ++ s.reg 1) = .ok (.jp 0x208) := by decide

/-- T109, T110, T111: no rows at any `I`, the last row at 0xFFF, and one row too many. -/
theorem witness_DrawInvertsSpritePixelsAndFlagsCollision : 0 < 16 ∧ 15 < 16 ∧
    ({ ready with i := 0xFF1 } : State).base + 15 ≤ 4096 ∧ 0 < 15 ∧ 4096 < ({ ready with i := 0xFF2 } : State).base + 15 := by
  decide
theorem witness_DoubleDrawRestoresTheDisplay : 1 < 16 ∧ (0 : Reg) ≠ 15 ∧ (14 : Reg) ≠ 15 ∧
    (sprite 0xFFF 0xC0).base + 1 ≤ 4096 ∧ ∃ t, exec (.drw 0 14 1) (sprite 0xFFF 0xC0) = .next t ∧
      t.disp.pixel 0 0 ≠ (sprite 0xFFF 0xC0).disp.pixel 0 0 := ⟨by decide, by decide, by decide, by decide, _, rfl, by decide⟩
theorem witness_KeySkipsTestTheLowNibblesKey : (15 : Fin 16).val = ((regs 1 0xFF 2 0).reg 1).toNat % 16 := by decide
theorem witness_KeyWaitHoldsUntilAPress : ({ ready with wait := some 15 } : State).wait = some 15 := rfl
theorem witness_TimerMovesCopyOneByte : ∃ t, exec (.ldStVx 3) (regs 3 0x1E 2 0) = .next t := ⟨_, rfl⟩
theorem witness_KeypressRecordsTheKey : ready.wait = none ∧ ({ ready with wait := some 15 } : State).wait = some 15 ∧
    15 < 16 := by decide
theorem witness_LoadRestartsWithTheRom : (List.replicate 3584 (0 : Byte)).length ≤ 3584 ∧
    3584 < (List.replicate 3585 (0 : Byte)).length := ⟨List.length_replicate.le, by rw [List.length_replicate]; decide⟩
theorem witness_LoadedProgramStartsAtItsFirstWord : (List.replicate 3582 (0 : Byte)).length ≤ 3582 ∧
    decode (0x6A#8 ++ 0x05#8) = .ok (.ldImm 10 5) := ⟨List.length_replicate.le, by decide⟩
theorem witness_PlacedWordIsTheNextToRun : (Instr.call 0xABC).WellFormed = true := by decide

theorem witness_FaultingEventChangesNothing : deliver (.keypress 16 true) ready = (ready, .fault .invalidKeyCode) := rfl
theorem witness_FaultIsStickyUntilLoadOrReset : (deliver (.tick 0) (at200 0x0000)).2 = .fault .invalidOpcode ∧
    ∀ e ∈ [Event.tickTimers, .keypress 3 true, .tick 7, .getSound], Claims.curesNothing e = true := by decide
theorem witness_RegistersAreReadAndWrittenAsListed : (∃ t, exec (.shr 1 2) ready = .next t) ∧
    Claims.writesReg (.shr 1 2) 2 = false ∧ Claims.readsReg (.shr 1 2) 2 = false ∧ Claims.writesReg (.ldRegs 14) 15 = false ∧
    (Claims.writesReg (.ldRegs 15) 15 = true ∧ Claims.readsReg (.ldRegs 15) 15 = false) ∧
    (Claims.writesReg (.drw 0 1 1) 15 = true ∧ Claims.readsReg (.drw 0 1 1) 15 = false) ∧
    ∃ t, exec (.ldVxK 15) ready = .next t :=
  ⟨⟨_, rfl⟩, by decide, by decide, by decide, by decide, by decide, _, rfl⟩
theorem witness_VfIsAFlagOfSixInstructionsOnly : (∃ t, exec (.addReg 1 2) (regs 1 0xFF 2 1) = .next t ∧
    t.reg 15 ≠ (regs 1 0xFF 2 1).reg 15) ∧ ∃ t, exec (.ldImm 15 0x80) ready = .next t ∧ t.reg 15 ≠ ready.reg 15 :=
  ⟨⟨_, rfl, by decide⟩, _, rfl, by decide⟩
theorem witness_IndexAndStackHaveTheirOwnWriters : (∃ t, exec (.ldI 0x300) ready = .next t ∧ t.i ≠ ready.i) ∧
    ∃ t, exec (.call 0x300) ready = .next t ∧ t.stack ≠ ready.stack ∧ t.sp ≠ ready.sp :=
  ⟨⟨_, rfl, by decide⟩, _, rfl, by decide, by decide⟩
/-- The last byte of memory, by FX33 and by FX55. -/
theorem witness_MemoryChangesOnlyInTheStoredBlock :
    (let s : State := State.word (State.setReg { ready with i := 0xFFD } 0 255) 0xF033
     ∃ t, step s = .next t ∧ t.mem.read 0xFFF ≠ s.mem.read 0xFFF) ∧
    let s : State := State.word (State.setReg { ready with i := 0xFF0 } 15 7) 0xFF55
    ∃ t, step s = .next t ∧ t.mem.read 0xFFF ≠ s.mem.read 0xFFF := ⟨⟨_, rfl, by decide⟩, _, rfl, by decide⟩
theorem witness_TimersAreSetByTwoInstructionsOnly :
    (let s := State.word (regs 1 7 2 0) 0xF115; ∃ t, step s = .next t ∧ t.dt ≠ s.dt) ∧
    (let s := State.word (regs 1 7 2 0) 0xF118; ∃ t, step s = .next t ∧ t.st ≠ s.st) ∧
    (deliver .tickTimers { ready with dt := 1, st := 255 }).1.dt ≠ 1 ∧ (deliver .tickTimers { ready with st := 255 }).1.st ≠ 255 ∧
    (deliver (.load []) { ready with dt := 1, st := 1 }).1.dt ≠ 1 ∧ (deliver .reset { ready with st := 1 }).1.st ≠ 1 :=
  ⟨⟨_, rfl, by decide⟩, ⟨_, rfl, by decide⟩, by decide, by decide, by decide, by decide⟩
theorem witness_DisplayAndKeysHaveTheirOwnWriters :
    let s := State.word (sprite 0x300 0x80) 0xD011
    ∃ t, step s = .next t ∧ t.disp.pixel 0 0 ≠ s.disp.pixel 0 0 := ⟨_, rfl, by decide⟩
theorem witness_WaitFollowsItsTransitionTable_running : (at200 0xFF0A).wait = none ∧
    (deliver (.tick 0) (at200 0xFF0A)).1.wait ≠ none ∧ (at200 0xFF0A).nextInstr = .ok (.ldVxK 15) := by decide
theorem witness_WaitFollowsItsTransitionTable_waiting : let s : State := { ready with wait := some 15 }
    s.wait = some 15 ∧ (deliver (.keypress 15 true) s).1.wait ≠ some 15 ∧ (deliver (.load []) s).1.wait ≠ some 15 ∧
      (deliver .reset s).1.wait ≠ some 15 := by decide
theorem witness_EventsWriteOnlyTheListedState : let s : State := { ready with wait := some 3 }
    (deliver (.keypress 15 true) s).1.v[3] ≠ s.reg 3 := by decide
theorem witness_StepKeepsTheInvariant : ready.Inv ∧ (at200 0xBFFF).Inv ∧ ∃ t, step (at200 0xBFFF) = .next t := by
  have h : ready.Inv := ⟨wf_nil, by decide, fun k hk => absurd hk (Nat.not_lt_zero _)⟩
  have m : (at200 0xBFFF).mem.wf := by
    show ((Memory.write [] 0x200 0xBF).write 0x201 0xFF).wf
    exact wf_write _ (wf_write _ wf_nil (by decide)) (by decide)
  exact ⟨h, ⟨m, by decide, h.live⟩, _, rfl⟩
theorem witness_EveryEventKeepsTheInvariant : ready.Inv := witness_StepKeepsTheInvariant.1
theorem witness_EndlessHistoriesKeepTheInvariant : ready.Inv := witness_StepKeepsTheInvariant.1

/-- An infinite history of presses of key 15 and timer events by turns. -/
def turns : History := fun n => if n % 2 = 0 then .keypress 15 true else .tickTimers

theorem witness_FairPressesEndEveryWait : InfinitelyOften Event.IsPress turns ∧
    (stateAt turns { ready with wait := some 15 } 0).wait = some 15 :=
  ⟨fun n => ⟨2 * n, by omega, 15, by decide, if_pos (by omega)⟩, rfl⟩
theorem witness_FairTimersRunOutAndStayOut : InfinitelyOften (· = .tickTimers) turns ∧
    (∀ m, 0 ≤ m → ¬(turns m).SetsDelay (stateAt turns { ready with dt := 255 } m)) ∧
    (stateAt turns { ready with dt := 255 } 2).dt = 254 := by
  refine ⟨fun n => ⟨2 * n + 1, by omega, if_neg (by omega)⟩, fun m _ hm => ?_, by decide⟩
  obtain ⟨b, x, h, -⟩ := hm
  simp only [turns] at h
  split at h <;> cases h

end Sys2Proof.Tests
end

/-! Proofs/ControlFlow: the control transfer instructions (41_control_flow.md). -/

namespace Sys2Proof.Machine

/-! ### Decoding a word written from its pattern (R62, R64) -/

/-- No operand is lost between a well-formed instruction and its word: the formats' field lemmas, row by row. -/
theorem decode_encode {i : Instr} (h : i.WellFormed = true) : decode (encode i) = .ok i := by
  cases i with
  | cls | ret => rfl
  | drw x y n =>
    have hn : n < 16 := of_decide_eq_true h
    simp [encode, decode, Nat.mod_eq_of_lt hn]
  | _ => simp [encode, decode, decodeMajor8, decodeMajorE, decodeMajorF]

/-! ### A TICK whose instruction faults (R80, R203) -/

/-- The fault of the instruction at PC is the TICK's answer, and the state is kept, the `rand8` input included. -/
theorem deliver_tick_of_exec_fault {s : State} {i : Instr} {f : Fault} (b : Byte) (hw : s.wait = none)
    (hi : s.nextInstr = .ok i) (hf : exec i (State.advance { s with rand8 := b }) = .fault f) :
    deliver (.tick b) s = (s, .fault f) := by
  have hi' : State.nextInstr { s with rand8 := b } = .ok i := (nextInstr_congr rfl rfl).trans hi
  have hstep : step { s with rand8 := b } = .fault f := by
    rw [step_of_running (by exact hw), hi', andThen_ok, hf]
  exact congrArg (commit s) hstep

/-! ### Jumps (R101, R103) -/

/-- The largest `V[0]` and immediate sum to 0x10FE, so the 16-bit sum is exact. -/
theorem zext16_byte_add_imm_toNat (b : Byte) (nnn : Imm12) :
    (zext16 b + zext16 nnn).toNat = b.toNat + nnn.toNat := by
  rw [BitVec.toNat_add, zext16_byte_toNat, zext16_imm_toNat]
  omega

theorem exec_jp (nnn : Imm12) (s : State) : exec (.jp nnn) s = .next { s with pc := zext16 nnn } := rfl

theorem exec_jpV0 (nnn : Imm12) (s : State) :
    exec (.jpV0 nnn) s = .next { s with pc := zext16 (s.reg 0) + zext16 nnn } := rfl

/-! ### Skips on a comparison (R104 to R107) -/

theorem skipIf_beq (s : State) (a b : Byte) :
    s.skipIf (a == b) = { s with pc := if a = b then s.pc + 2 else s.pc } := by
  simp only [skipIf_eq, beq_iff_eq]
  rfl

theorem skipIf_bne (s : State) (a b : Byte) :
    s.skipIf (a != b) = { s with pc := if a ≠ b then s.pc + 2 else s.pc } := by
  simp only [skipIf_eq, bne_iff_ne]
  rfl

/-! ### The call stack instructions (R100, R102) -/

theorem exec_call_of_lt (nnn : Imm12) {s : State} (h : s.sp.val < 16) :
    exec (.call nnn) s = .next { s with
      stack := s.stack.set s.sp.val s.pc, sp := ⟨s.sp.val + 1, by omega⟩, pc := zext16 nnn } :=
  (execCall_eq nnn s).trans (dif_pos h)

theorem exec_call_of_full (nnn : Imm12) {s : State} (h : s.sp.val = 16) :
    exec (.call nnn) s = .fault .stackOverflow :=
  (execCall_eq nnn s).trans (dif_neg (by omega))

theorem exec_ret_of_live {s : State} {k : Fin 16} (h : s.sp.val = k.val + 1) :
    exec .ret s = .next { s with sp := k.castSucc, pc := s.stack[k.val] } := by
  have hne : s.sp.val ≠ 0 := by omega
  refine (execRet_eq s).trans ((dif_neg hne).trans ?_)
  simp only [h, Nat.add_sub_cancel]
  rfl

theorem exec_ret_of_empty {s : State} (h : s.sp.val = 0) : exec .ret s = .fault .stackUnderflow :=
  (execRet_eq s).trans (dif_pos h)

/-! ### The obligations -/

/-- Settles O11: a push writes the one entry at SP; the full stack's fault reaches the TICK that fetched the CALL. -/
theorem callPushesPcAndJumps : Obligations.CallPushesPcAndJumps := by
  intro nnn s
  refine ⟨decode_encode (i := .call nnn) rfl, fun hlt => ?_, fun hfull => ?_⟩
  · refine ⟨_, _, _, exec_call_of_lt nnn hlt, fun k => ?_, rfl, zext16_imm_toNat nnn⟩
    simp only [Vector.getElem_set, eq_comm]
  · exact ⟨exec_call_of_full nnn hfull, fun b hw hi =>
      deliver_tick_of_exec_fault b hw hi (exec_call_of_full nnn hfull)⟩

/-- Settles O12: a pop moves SP and reads the entry; the empty stack's fault reaches the TICK that fetched the RET. -/
theorem retPopsPc : Obligations.RetPopsPc := fun _ =>
  ⟨decode_encode (i := .ret) rfl, fun _ => exec_ret_of_live, fun hempty =>
    ⟨exec_ret_of_empty hempty, fun b hw hi => deliver_tick_of_exec_fault b hw hi (exec_ret_of_empty hempty)⟩⟩

/-- Settles O10: both targets are zero-extended fields, whose numbers, and whose sum, 16 bits hold exactly. -/
theorem jumpsSetPcToTheTarget : Obligations.JumpsSetPcToTheTarget := fun nnn s =>
  ⟨decode_encode (i := .jp nnn) rfl, decode_encode (i := .jpV0 nnn) rfl,
    ⟨_, exec_jp nnn s, zext16_imm_toNat nnn⟩,
    ⟨_, exec_jpV0 nnn s, zext16_byte_add_imm_toNat (s.reg 0) nnn⟩⟩

/-- Settles O14: each skip is `skipIf` on its comparison, and `skipIf` changes PC alone. -/
theorem skipsMovePcOnTheirCondition : Obligations.SkipsMovePcOnTheirCondition := fun x y nn s =>
  ⟨decode_encode (i := .seImm x nn) rfl, decode_encode (i := .sneImm x nn) rfl,
    decode_encode (i := .seReg x y) rfl, decode_encode (i := .sneReg x y) rfl,
    congrArg Host.Outcome.next (skipIf_beq s (s.reg x) nn), congrArg Host.Outcome.next (skipIf_bne s (s.reg x) nn),
    congrArg Host.Outcome.next (skipIf_beq s (s.reg x) (s.reg y)),
    congrArg Host.Outcome.next (skipIf_bne s (s.reg x) (s.reg y))⟩

end Sys2Proof.Machine

/-! Proofs/Alu: the loads and the additions into one register (42_alu.md). -/

namespace Sys2Proof.Machine

/-! ### The register file after one write (R10) -/

theorem getElem_setReg_v_same (s : State) (x : Reg) (b : Byte) : (s.setReg x b).v[x.val] = b :=
  (reg_setReg s x x b).trans (if_pos rfl)

theorem getElem_setReg_v_of_ne (s : State) {x q : Reg} (b : Byte) (h : q ≠ x) :
    (s.setReg x b).v[q.val] = s.reg q :=
  (reg_setReg s x q b).trans (if_neg h)

/-! ### Loads and additions of an immediate (R121, R122) -/

theorem exec_ldImm (x : Reg) (nn : Byte) (s : State) : exec (.ldImm x nn) s = .next (s.setReg x nn) := rfl

theorem exec_addImm (x : Reg) (nn : Byte) (s : State) :
    exec (.addImm x nn) s = .next (s.setReg x (s.reg x + nn)) := rfl

/-! ### The obligations -/

/-- Settles O15: each is one `setReg`, which changes the register file alone, and in it the destination alone; a byte sum
is the sum modulo 256. -/
theorem loadsAndImmediateAddWriteOneRegister : Obligations.LoadsAndImmediateAddWriteOneRegister := by
  intro x nn s
  refine ⟨decode_encode (i := .ldImm x nn) rfl, decode_encode (i := .addImm x nn) rfl,
    ⟨_, exec_ldImm x nn s, getElem_setReg_v_same s x nn, fun q => getElem_setReg_v_of_ne s nn⟩,
    ⟨_, exec_addImm x nn s, ?_, fun q => getElem_setReg_v_of_ne s (s.reg x + nn)⟩⟩
  calc ((s.setReg x (s.reg x + nn)).v[x.val]).toNat
      _ = (s.reg x + nn).toNat := congrArg BitVec.toNat (getElem_setReg_v_same s x (s.reg x + nn))
      _ = ((s.reg x).toNat + nn.toNat) % 256 := BitVec.toNat_add (s.reg x) nn

end Sys2Proof.Machine

/-! Proofs/IndexMemory: the index register and the memory accesses through it (43_index_memory.md). -/

namespace Sys2Proof.Machine

/-! ### The load of the index register (R141) -/

theorem exec_ldI (nnn : Imm12) (s : State) : exec (.ldI nnn) s = .next { s with i := zext16 nnn } := rfl

/-! ### The obligations -/

/-- Settles O21: the row's word is read back whole, and the value is a zero-extended field, which keeps its number. -/
theorem loadIndexSetsTheImmediate : Obligations.LoadIndexSetsTheImmediate := fun nnn s =>
  ⟨decode_encode (i := .ldI nnn) rfl, ⟨_, exec_ldI nnn s, zext16_imm_toNat nnn⟩⟩

end Sys2Proof.Machine

/-! Proofs/Display: the display instructions and the read-out (44_display.md). -/

namespace Sys2Proof.Machine

/-! ### The blank display (R160, R228) -/

theorem exec_cls (s : State) : exec .cls s = .next { s with disp := blankDisplay } := rfl

theorem rowMajor_blank : blankDisplay.rowMajor = List.replicate 2048 false :=
  calc blankDisplay.rowMajor
      _ = (List.replicate 32 (Vector.replicate 64 false)).flatMap Vector.toList :=
        congrArg (List.flatMap Vector.toList) Vector.toList_replicate
      _ = (List.replicate 32 (List.replicate 64 false)).flatten := by
        rw [List.flatMap_replicate, Vector.toList_replicate]
      _ = List.replicate 2048 false := List.flatten_replicate_replicate

/-! ### The obligations -/

/-- Settles O28: CLS puts the blank display in place of the old one, whose read-out is 32 rows of 64 zeros. -/
theorem clsTurnsEveryPixelOff : Obligations.ClsTurnsEveryPixelOff := fun s =>
  ⟨decode_encode (i := .cls) rfl, blankDisplay, exec_cls s, pixel_blank, rowMajor_blank⟩

end Sys2Proof.Machine

/-! Proofs/KeypadTimers: the timer moves and the tone (45_keypad_timers.md). -/

namespace Sys2Proof.Machine

/-! ### The tone (R229) -/

theorem tone_iff (s : State) : tone s = true ↔ s.st ≠ 0 := bne_iff_ne

/-! ### The timer moves (R175 to R177) -/

theorem exec_ldVxDt (x : Reg) (s : State) : exec (.ldVxDt x) s = .next (s.setReg x s.dt) := rfl

theorem exec_ldDtVx (x : Reg) (s : State) : exec (.ldDtVx x) s = .next { s with dt := s.reg x } := rfl

theorem exec_ldStVx (x : Reg) (s : State) : exec (.ldStVx x) s = .next { s with st := s.reg x } := rfl

theorem tone_of_exec_ldStVx {x : Reg} {s t : State} (h : exec (.ldStVx x) s = .next t) :
    tone t = true ↔ s.reg x ≠ 0 := by
  obtain rfl : { s with st := s.reg x } = t := Host.Outcome.next.inj ((exec_ldStVx x s).symm.trans h)
  exact tone_iff { s with st := s.reg x }

/-! ### The obligations -/

/-- Settles O34: FX07 is one `setReg`, FX15 and FX18 each replace one timer, and the tone is read off the ST written. -/
theorem timerMovesCopyOneByte : Obligations.TimerMovesCopyOneByte := fun x s =>
  ⟨decode_encode (i := .ldVxDt x) rfl, decode_encode (i := .ldDtVx x) rfl, decode_encode (i := .ldStVx x) rfl,
    ⟨_, exec_ldVxDt x s, getElem_setReg_v_same s x s.dt, fun _ => getElem_setReg_v_of_ne s s.dt⟩,
    exec_ldDtVx x s, exec_ldStVx x s, fun _ => tone_of_exec_ldStVx⟩

end Sys2Proof.Machine

/-! Proofs/Exceptions: the events of the boundary beside TICK, and the event that faults (60_exceptions.md). -/

namespace Sys2Proof.Machine

/-! ### The read-out of the display (R228) -/

/-- The read-out is the rows laid end to end, a vector of 32 * 64 pixels: the library's `flatten`. -/
theorem rowMajor_eq_flatten (d : Display) : d.rowMajor = d.flatten.toList :=
  calc d.rowMajor
      _ = (d.toList.map (Array.toList ∘ Vector.toArray)).flatten := List.flatMap_def
      _ = (d.toArray.map Vector.toArray).flatten.toList := by
        rw [Array.toList_flatten, Array.toList_map, List.map_map, Vector.toList]

theorem length_rowMajor (d : Display) : d.rowMajor.length = 2048 := by
  rw [rowMajor_eq_flatten, Vector.length_toList]

/-- The quotient and the remainder of an index by the row length are its row and its column. -/
theorem rowMajor_getElem? (d : Display) (px : Fin 64) (py : Fin 32) :
    d.rowMajor[64 * py.val + px.val]? = some (d.pixel px py) := by
  have hrow : (64 * py.val + px.val) / 64 = py.val := by omega
  have hcol : (64 * py.val + px.val) % 64 = px.val := by omega
  have hlt : 64 * py.val + px.val < 32 * 64 := by omega
  rw [rowMajor_eq_flatten, Vector.getElem?_toList, Vector.getElem?_eq_getElem hlt, Vector.getElem_flatten]
  simp only [hrow, hcol, Display.pixel]

/-! ### TICK_TIMERS (R220) -/

theorem deliver_tickTimers (s : State) :
    deliver .tickTimers s = ({ s with dt := countDown s.dt, st := countDown s.st }, .ok) := rfl

/-- TICK_TIMERS alone touches the two timers and nothing else, however often it comes. -/
theorem deliverAll_replicate_tickTimers (k : Nat) (s : State) :
    (deliverAll (List.replicate k .tickTimers) s).1 = { s with dt := countDown^[k] s.dt, st := countDown^[k] s.st } := by
  induction k generalizing s with
  | zero => rfl
  | succ k ih =>
    rw [List.replicate_succ, deliverAll_cons, deliver_tickTimers, ih]
    rfl

theorem iterate_countDown_toNat (k : Nat) (b : Byte) : (countDown^[k] b).toNat = b.toNat - k := by
  induction k with
  | zero => rfl
  | succ k ih => rw [Function.iterate_succ_apply', countDown_toNat, ih, Nat.sub_sub]

/-! ### An event that faults (R203) -/

/-- Of the three outcomes only `next` gives the event another state, and its response is no fault. -/
theorem state_eq_of_commit_fault {s t : State} {o : Result} {f : Fault} (h : commit s o = (t, .fault f)) : t = s := by
  cases o with
  | next u => cases h
  | fault g => cases h; rfl
  | refused q => cases h

/-! ### The obligations -/

/-- Settles O31: the read-out is the flattened display, indexed by row and column. -/
theorem readOutIsRowMajor : Obligations.ReadOutIsRowMajor := fun s =>
  ⟨rfl, length_rowMajor s.disp, rowMajor_getElem? s.disp⟩

/-- Settles O35: `k` events iterate `countDown` on each timer, and `k` truncated subtractions of 1 take `k` off. -/
theorem timersCountDownToZero : Obligations.TimersCountDownToZero := fun s k =>
  ⟨⟨_, _, deliver_tickTimers s, countDown_toNat s.dt, countDown_toNat s.st⟩,
    ⟨_, _, deliverAll_replicate_tickTimers k s, iterate_countDown_toNat k s.dt, iterate_countDown_toNat k s.st⟩⟩

/-- Settles O43: RESET, TICK_TIMERS and the two read-outs never fault; LOAD, TICK and KEYPRESS each commit an outcome. -/
theorem faultingEventChangesNothing : Obligations.FaultingEventChangesNothing := by
  intro e s t f h
  cases e with
  | reset | tickTimers | getDisplay | getSound => cases h
  | load | tick | keypress => exact state_eq_of_commit_fault h

/-- Settles O36: the response is ST itself and the tone, which `tone_iff` reads off ST. -/
theorem soundReadOutShowsTheTimer : Obligations.SoundReadOutShowsTheTimer := fun s =>
  ⟨tone s, rfl, (tone_iff s).trans BitVec.toNat_ne_iff_ne.symm⟩

end Sys2Proof.Machine

/-! Proofs/Decoder: the decoder, the encoder and the opcode table agree (30_encoding.md). -/

namespace Sys2Proof

open Laws

/-! ### A word rebuilt from its fields, some of them known (R61) -/

/-- A field is the literal of its number. -/
theorem eq_ofNat_of_toNat {m k : Nat} {b : BitVec m} (h : b.toNat = k) : b = BitVec.ofNat m k := by
  rw [← h, BitVec.ofNat_toNat, BitVec.setWidth_eq]

theorem formatA_of_opField {w : Word} {op : Nibble} (h : opField w = op) : formatA op (nnnField w) = w :=
  h ▸ formatA_fields w

theorem formatXK_of_opField {w : Word} {op : Nibble} (h : opField w = op) :
    formatXK op (regOf (xField w)) (nnField w) = w :=
  h ▸ formatXK_fields w

theorem formatXYN_of_opField {w : Word} {op : Nibble} (h : opField w = op) :
    formatXYN op (regOf (xField w)) (regOf (yField w)) (nField w) = w :=
  h ▸ formatXYN_fields w

theorem formatXYN_of_fields {w : Word} {op n : Nibble} (ho : opField w = op) (hn : nField w = n) :
    formatXYN op (regOf (xField w)) (regOf (yField w)) n = w :=
  hn ▸ formatXYN_of_opField ho

theorem formatXK_of_fields {w : Word} {op : Nibble} {nn : Byte} (ho : opField w = op) (hn : nnField w = nn) :
    formatXK op (regOf (xField w)) nn = w :=
  hn ▸ formatXK_of_opField ho

/-! ### What a word that decodes decodes to (R62, R64) -/

/-- `i` is an instruction whose word is `w`. -/
def IsWordOf (w : Word) (i : Instr) : Prop := i.WellFormed = true ∧ encode i = w

theorem isWordOf_decodeMajor0 {w : Word} {i : Instr} (h : decodeMajor0 w = .ok i) : IsWordOf w i := by
  unfold decodeMajor0 at h
  split at h
  · next hw => cases h; exact ⟨rfl, hw.symm⟩
  · split at h
    · next hw => cases h; exact ⟨rfl, hw.symm⟩
    · cases h

theorem isWordOf_decodeMajor8 {x y : Reg} {n : Nibble} {i : Instr} (h : decodeMajor8 x y n = .ok i) :
    IsWordOf (formatXYN 0x8#4 x y n) i := by
  unfold decodeMajor8 at h
  split at h
  case h_10 => cases h
  all_goals next hn => cases h; exact ⟨rfl, congrArg (formatXYN 0x8#4 x y) (eq_ofNat_of_toNat hn).symm⟩

theorem isWordOf_decodeMajorE {x : Reg} {nn : Byte} {i : Instr} (h : decodeMajorE x nn = .ok i) :
    IsWordOf (formatXK 0xE#4 x nn) i := by
  unfold decodeMajorE at h
  split at h
  case h_3 => cases h
  all_goals next hn => cases h; exact ⟨rfl, congrArg (formatXK 0xE#4 x) (eq_ofNat_of_toNat hn).symm⟩

theorem isWordOf_decodeMajorF {x : Reg} {nn : Byte} {i : Instr} (h : decodeMajorF x nn = .ok i) :
    IsWordOf (formatXK 0xF#4 x nn) i := by
  unfold decodeMajorF at h
  split at h
  case h_10 => cases h
  all_goals next hn => cases h; exact ⟨rfl, congrArg (formatXK 0xF#4 x) (eq_ofNat_of_toNat hn).symm⟩

theorem isWordOf_drw {w : Word} (h : opField w = 0xD#4) :
    IsWordOf w (.drw (regOf (xField w)) (regOf (yField w)) (nField w).toNat) :=
  ⟨decide_eq_true (nField w).isLt, formatXYN_of_fields h (eq_ofNat_of_toNat rfl)⟩

/-- Major opcode by major opcode: the operands are the word's fields, so the word is rebuilt from them. -/
theorem isWordOf_decode {w : Word} {i : Instr} (h : decode w = .ok i) : IsWordOf w i := by
  unfold decode at h
  dsimp only at h
  split at h
  case h_1 => exact isWordOf_decodeMajor0 h
  case h_9 ho => exact formatXYN_of_opField (eq_ofNat_of_toNat ho) ▸ isWordOf_decodeMajor8 h
  case h_15 ho => exact formatXK_of_opField (eq_ofNat_of_toNat ho) ▸ isWordOf_decodeMajorE h
  case h_16 =>
    have ho : (opField w).toNat = 0xF := by
      have := (opField w).isLt
      simp only [imp_false] at *
      omega
    exact formatXK_of_opField (eq_ofNat_of_toNat ho) ▸ isWordOf_decodeMajorF h
  case h_6 ho | h_10 ho =>
    split at h
    · next hn => cases h; exact ⟨rfl, formatXYN_of_fields (eq_ofNat_of_toNat ho) hn⟩
    · cases h
  case h_2 ho | h_3 ho | h_11 ho | h_12 ho => cases h; exact ⟨rfl, formatA_of_opField (eq_ofNat_of_toNat ho)⟩
  case h_4 ho | h_5 ho | h_7 ho | h_8 ho | h_13 ho =>
    cases h; exact ⟨rfl, formatXK_of_opField (eq_ofNat_of_toNat ho)⟩
  case h_14 ho =>
    cases h; exact isWordOf_drw (eq_ofNat_of_toNat ho)

/-! ### The opcode table (R62) -/

/-- The word of every well-formed instruction takes the instruction's own row. -/
theorem matchesRow : ∀ i : Instr, MatchesRow.Statement i
  | .cls => MatchesRow.cls
  | .ret => MatchesRow.ret
  | .jp a => MatchesRow.jp a
  | .call a => MatchesRow.call a
  | .seImm x nn => MatchesRow.seImm x nn
  | .sneImm x nn => MatchesRow.sneImm x nn
  | .seReg x y => MatchesRow.seReg x y
  | .ldImm x nn => MatchesRow.ldImm x nn
  | .addImm x nn => MatchesRow.addImm x nn
  | .ldReg x y => MatchesRow.ldReg x y
  | .orReg x y => MatchesRow.orReg x y
  | .andReg x y => MatchesRow.andReg x y
  | .xorReg x y => MatchesRow.xorReg x y
  | .addReg x y => MatchesRow.addReg x y
  | .subReg x y => MatchesRow.subReg x y
  | .shr x y => MatchesRow.shr x y
  | .subnReg x y => MatchesRow.subnReg x y
  | .shl x y => MatchesRow.shl x y
  | .sneReg x y => MatchesRow.sneReg x y
  | .ldI a => MatchesRow.ldI a
  | .jpV0 a => MatchesRow.jpV0 a
  | .rnd x nn => MatchesRow.rnd x nn
  | .drw x y n => MatchesRow.drw x y n
  | .skp x => MatchesRow.skp x
  | .sknp x => MatchesRow.sknp x
  | .ldVxDt x => MatchesRow.ldVxDt x
  | .ldVxK x => MatchesRow.ldVxK x
  | .ldDtVx x => MatchesRow.ldDtVx x
  | .ldStVx x => MatchesRow.ldStVx x
  | .addI x => MatchesRow.addI x
  | .ldF x => MatchesRow.ldF x
  | .ldB x => MatchesRow.ldB x
  | .stRegs x => MatchesRow.stRegs x
  | .ldRegs x => MatchesRow.ldRegs x

section Rows

variable {w f : Word}

/-- Under mask FFFF a row is one word. -/
theorem eq_of_holdsZ (h : Pattern.holds ⟨0xFFFF#16, f⟩ w = true) : w = f :=
  (and_maskZ w).symm.trans (beq_iff_eq.mp h)

theorem formatA_of_holds (h : Pattern.holds ⟨0xF000#16, f⟩ w = true) : formatA (opField w) 0 = f :=
  (and_maskA w).symm.trans (beq_iff_eq.mp h)

theorem formatXYN_of_holds (h : Pattern.holds ⟨0xF00F#16, f⟩ w = true) :
    formatXYN (opField w) 0 0 (nField w) = f :=
  (and_maskXY w).symm.trans (beq_iff_eq.mp h)

theorem formatXK_of_holds (h : Pattern.holds ⟨0xF0FF#16, f⟩ w = true) : formatXK (opField w) 0 (nnField w) = f :=
  (and_maskXF w).symm.trans (beq_iff_eq.mp h)

/-- Under mask F000 a row fixes the major opcode. -/
theorem opField_of_holdsA (h : Pattern.holds ⟨0xF000#16, f⟩ w = true) : opField w = opField f := by
  rw [← formatA_of_holds h, opField_formatA]

/-- Under mask F00F a row fixes the major opcode and the last digit. -/
theorem opField_of_holdsXY (h : Pattern.holds ⟨0xF00F#16, f⟩ w = true) : opField w = opField f := by
  rw [← formatXYN_of_holds h, opField_formatXYN]

theorem nField_of_holdsXY (h : Pattern.holds ⟨0xF00F#16, f⟩ w = true) : nField w = nField f := by
  rw [← formatXYN_of_holds h, nField_formatXYN]

/-- Under mask F0FF a row fixes the major opcode and the low byte. -/
theorem opField_of_holdsXF (h : Pattern.holds ⟨0xF0FF#16, f⟩ w = true) : opField w = opField f := by
  rw [← formatXK_of_holds h, opField_formatXK]

theorem nnField_of_holdsXF (h : Pattern.holds ⟨0xF0FF#16, f⟩ w = true) : nnField w = nnField f := by
  rw [← formatXK_of_holds h, nnField_formatXK]

end Rows

/-- Row by row: the digits a row leaves open are operands, so every word of the row is some instruction's. -/
theorem exists_isWordOf_of_holds {p : Pattern} (hp : p ∈ opcodeTable) {w : Word} (h : p.holds w = true) :
    ∃ i, IsWordOf w i ∧ i.pattern = p := by
  simp only [opcodeTable, List.mem_cons, List.not_mem_nil, or_false] at hp
  rcases hp with rfl | rfl | rfl | rfl | rfl | rfl | rfl | rfl | rfl | rfl | rfl | rfl |
      rfl | rfl | rfl | rfl | rfl | rfl | rfl | rfl | rfl | rfl | rfl | rfl |
      rfl | rfl | rfl | rfl | rfl | rfl | rfl | rfl | rfl | rfl
  exacts [
      ⟨.cls, ⟨rfl, (eq_of_holdsZ h).symm⟩, rfl⟩,
      ⟨.ret, ⟨rfl, (eq_of_holdsZ h).symm⟩, rfl⟩,
      ⟨.jp _, ⟨rfl, formatA_of_opField (opField_of_holdsA h)⟩, rfl⟩,
      ⟨.call _, ⟨rfl, formatA_of_opField (opField_of_holdsA h)⟩, rfl⟩,
      ⟨.seImm _ _, ⟨rfl, formatXK_of_opField (opField_of_holdsA h)⟩, rfl⟩,
      ⟨.sneImm _ _, ⟨rfl, formatXK_of_opField (opField_of_holdsA h)⟩, rfl⟩,
      ⟨.seReg _ _, ⟨rfl, formatXYN_of_fields (opField_of_holdsXY h) (nField_of_holdsXY h)⟩, rfl⟩,
      ⟨.ldImm _ _, ⟨rfl, formatXK_of_opField (opField_of_holdsA h)⟩, rfl⟩,
      ⟨.addImm _ _, ⟨rfl, formatXK_of_opField (opField_of_holdsA h)⟩, rfl⟩,
      ⟨.ldReg _ _, ⟨rfl, formatXYN_of_fields (opField_of_holdsXY h) (nField_of_holdsXY h)⟩, rfl⟩,
      ⟨.orReg _ _, ⟨rfl, formatXYN_of_fields (opField_of_holdsXY h) (nField_of_holdsXY h)⟩, rfl⟩,
      ⟨.andReg _ _, ⟨rfl, formatXYN_of_fields (opField_of_holdsXY h) (nField_of_holdsXY h)⟩, rfl⟩,
      ⟨.xorReg _ _, ⟨rfl, formatXYN_of_fields (opField_of_holdsXY h) (nField_of_holdsXY h)⟩, rfl⟩,
      ⟨.addReg _ _, ⟨rfl, formatXYN_of_fields (opField_of_holdsXY h) (nField_of_holdsXY h)⟩, rfl⟩,
      ⟨.subReg _ _, ⟨rfl, formatXYN_of_fields (opField_of_holdsXY h) (nField_of_holdsXY h)⟩, rfl⟩,
      ⟨.shr _ _, ⟨rfl, formatXYN_of_fields (opField_of_holdsXY h) (nField_of_holdsXY h)⟩, rfl⟩,
      ⟨.subnReg _ _, ⟨rfl, formatXYN_of_fields (opField_of_holdsXY h) (nField_of_holdsXY h)⟩, rfl⟩,
      ⟨.shl _ _, ⟨rfl, formatXYN_of_fields (opField_of_holdsXY h) (nField_of_holdsXY h)⟩, rfl⟩,
      ⟨.sneReg _ _, ⟨rfl, formatXYN_of_fields (opField_of_holdsXY h) (nField_of_holdsXY h)⟩, rfl⟩,
      ⟨.ldI _, ⟨rfl, formatA_of_opField (opField_of_holdsA h)⟩, rfl⟩,
      ⟨.jpV0 _, ⟨rfl, formatA_of_opField (opField_of_holdsA h)⟩, rfl⟩,
      ⟨.rnd _ _, ⟨rfl, formatXK_of_opField (opField_of_holdsA h)⟩, rfl⟩,
      ⟨.drw _ _ _, isWordOf_drw (opField_of_holdsA h), rfl⟩,
      ⟨.skp _, ⟨rfl, formatXK_of_fields (opField_of_holdsXF h) (nnField_of_holdsXF h)⟩, rfl⟩,
      ⟨.sknp _, ⟨rfl, formatXK_of_fields (opField_of_holdsXF h) (nnField_of_holdsXF h)⟩, rfl⟩,
      ⟨.ldVxDt _, ⟨rfl, formatXK_of_fields (opField_of_holdsXF h) (nnField_of_holdsXF h)⟩, rfl⟩,
      ⟨.ldVxK _, ⟨rfl, formatXK_of_fields (opField_of_holdsXF h) (nnField_of_holdsXF h)⟩, rfl⟩,
      ⟨.ldDtVx _, ⟨rfl, formatXK_of_fields (opField_of_holdsXF h) (nnField_of_holdsXF h)⟩, rfl⟩,
      ⟨.ldStVx _, ⟨rfl, formatXK_of_fields (opField_of_holdsXF h) (nnField_of_holdsXF h)⟩, rfl⟩,
      ⟨.addI _, ⟨rfl, formatXK_of_fields (opField_of_holdsXF h) (nnField_of_holdsXF h)⟩, rfl⟩,
      ⟨.ldF _, ⟨rfl, formatXK_of_fields (opField_of_holdsXF h) (nnField_of_holdsXF h)⟩, rfl⟩,
      ⟨.ldB _, ⟨rfl, formatXK_of_fields (opField_of_holdsXF h) (nnField_of_holdsXF h)⟩, rfl⟩,
      ⟨.stRegs _, ⟨rfl, formatXK_of_fields (opField_of_holdsXF h) (nnField_of_holdsXF h)⟩, rfl⟩,
      ⟨.ldRegs _, ⟨rfl, formatXK_of_fields (opField_of_holdsXF h) (nnField_of_holdsXF h)⟩, rfl⟩]

/-! ### The words that decode to nothing (R65) -/

theorem opField_toNat (w : Word) : (opField w).toNat = w.toNat / 0x1000 := by
  simp only [opField, BitVec.extractLsb'_toNat, Nat.shiftRight_eq_div_pow]
  omega

theorem nField_toNat (w : Word) : (nField w).toNat = w.toNat % 16 := by
  simp [nField, BitVec.extractLsb'_toNat]

theorem nnField_toNat (w : Word) : (nnField w).toNat = w.toNat % 256 := by
  simp [nnField, BitVec.extractLsb'_toNat]

theorem decodeMajor0_error (w : Word) :
    (∃ e, decodeMajor0 w = .error e) ↔ w.toNat ≠ 0x00E0 ∧ w.toNat ≠ 0x00EE := by
  unfold decodeMajor0
  split
  · next h => simp [h]
  · next h =>
    split
    · next h' => simp [h']
    · next h' => simpa using ⟨BitVec.toNat_ne_iff_ne.mpr h, BitVec.toNat_ne_iff_ne.mpr h'⟩

/-- Reading R63 from the other side: the digits that name no operation. -/
theorem decodeMajor8_error (x y : Reg) (n : Nibble) :
    (∃ e, decodeMajor8 x y n = .error e) ↔ n.toNat ∈ [0x8, 0x9, 0xA, 0xB, 0xC, 0xD, 0xF] := by
  unfold decodeMajor8
  split
  case h_10 =>
    have := n.isLt
    simp only [imp_false] at *
    simp
    omega
  all_goals next h => simp [h]

theorem decodeMajorE_error (x : Reg) (nn : Byte) :
    (∃ e, decodeMajorE x nn = .error e) ↔ nn.toNat ∉ [0x9E, 0xA1] := by
  unfold decodeMajorE
  split
  case h_3 => simp_all
  all_goals next h => simp [h]

theorem decodeMajorF_error (x : Reg) (nn : Byte) :
    (∃ e, decodeMajorF x nn = .error e) ↔
      nn.toNat ∉ [0x07, 0x0A, 0x15, 0x18, 0x1E, 0x29, 0x33, 0x55, 0x65] := by
  unfold decodeMajorF
  split
  case h_10 => simp_all
  all_goals next h => simp [h]

/-! ### The obligations -/

/-- Settles O1: no operand is lost between a well-formed instruction and its word. -/
theorem decodeOfEncodeIsTheInstruction : Obligations.DecodeOfEncodeIsTheInstruction := fun _ =>
  Machine.decode_encode

/-- Settles O2: the word is put together again from the fields that decoding took from it. -/
theorem encodeOfDecodeIsTheWord : Obligations.EncodeOfDecodeIsTheWord := fun _ _ => isWordOf_decode

/-- Settles O3: a decoded word is its instruction's word, which takes its row; a row's word is some instruction's word,
which decodes to it. -/
theorem wordDecodesExactlyByItsOpcodeRow : Obligations.WordDecodesExactlyByItsOpcodeRow := by
  refine ⟨rfl, fun w i h => ?_, fun w p hp h => ?_⟩
  · obtain ⟨hwf, rfl⟩ := isWordOf_decode h
    exact matchesRow i hwf
  · obtain ⟨i, ⟨hwf, rfl⟩, hi⟩ := exists_isWordOf_of_holds hp h
    exact ⟨i, Machine.decode_encode hwf, hi⟩

/-- Settles O4: the rejected words are those of the six major opcodes with fixed digits, each by its own table row. -/
theorem invalidWordsAreThoseOfTheTable : Obligations.InvalidWordsAreThoseOfTheTable := by
  intro w
  rw [← opField_toNat, ← nField_toNat, ← nnField_toNat]
  unfold decode
  dsimp only
  split
  case h_1 ho => rw [decodeMajor0_error, ho]; simp
  case h_9 ho => rw [decodeMajor8_error, ho]; simp
  case h_15 ho => rw [decodeMajorE_error, ho]; simp
  case h_16 =>
    have ho : (opField w).toNat = 0xF := by
      have := (opField w).isLt
      simp only [imp_false] at *
      omega
    rw [decodeMajorF_error, ho]; simp
  case h_6 ho | h_10 ho =>
    rw [ho]
    split
    · next hn => simp [hn]
    · next hn => simpa using BitVec.toNat_ne_iff_ne.mpr hn
  all_goals next ho => simp [ho]

/-- Settles O5: each word is written as its instruction's encoding lays out the bits. -/
theorem familyWordsDecodeAsWritten : Obligations.FamilyWordsDecodeAsWritten :=
  ⟨Machine.decode_encode (i := .call 0xABC) rfl, Machine.decode_encode (i := .seImm 3 0x2A) rfl,
    Machine.decode_encode (i := .subnReg 1 2) rfl, Machine.decode_encode (i := .ldRegs 2) rfl,
    Machine.decode_encode (i := .drw 1 2 2) rfl, Machine.decode_encode (i := .ldVxK 1) rfl⟩

end Sys2Proof

/-! Proofs/Exec: what every instruction answers, said once: the fault it meets, or the state it leaves. -/

namespace Sys2Proof.Machine

/-! ### The answer of an instruction (R85, R201) -/

/-- The fault that instruction `i` meets in state `s`, if it meets one (R201). -/
def execFault (i : Instr) (s : State) : Option Fault :=
  match i with
  | .call _ => if s.sp.val < 16 then none else some .stackOverflow
  | .ret => if s.sp.val = 0 then some .stackUnderflow else none
  | .drw _ _ n => if n = 0 ∨ s.base + n ≤ 4096 then none else some .outOfBoundsAccess
  | .ldB _ => if s.base + 3 ≤ 4096 then none else some .outOfBoundsAccess
  | .stRegs x | .ldRegs x => if s.base + (x.val + 1) ≤ 4096 then none else some .outOfBoundsAccess
  | _ => none

/-- The state that instruction `i` leaves when it meets no fault. Of the instructions that cannot fault it is what they
answer. -/
def execNext (i : Instr) (s : State) : State :=
  match i with
  | .call nnn =>
    { s with stack := s.stack.setIfInBounds s.sp.val s.pc, sp := ⟨min (s.sp.val + 1) 16, by omega⟩, pc := zext16 nnn }
  | .ret => { s with sp := ⟨s.sp.val - 1, by omega⟩, pc := s.stack[s.sp.val - 1]'(by omega) }
  | .drw x y n => State.setReg { s with disp := (s.drawing x y n).disp } Reg.vf (flagByte (s.drawing x y n).hit)
  | .ldB x => { s with mem := storeAll s.mem s.base (bcdDigits (s.reg x)) }
  | .stRegs x => { s with mem := storeAll s.mem s.base (s.regsUpTo x) }
  | .ldRegs x => { s with v := fillRegs s.v 0 (s.bytesAt (x.val + 1)) }
  | i =>
    match exec i s with
    | .next t => t
    | _ => s

theorem setIfInBounds_eq_set {α : Type} {n k : Nat} (xs : Vector α n) (a : α) (h : k < n) :
    xs.setIfInBounds k a = xs.set k a h :=
  Vector.ext fun j hj => by rw [Vector.getElem_setIfInBounds hj, Vector.getElem_set]

/-- `exec` said once: the fault if there is one, else the next state. It never refuses. -/
theorem exec_eq (i : Instr) (s : State) :
    exec i s = (execFault i s).elim (.next (execNext i s)) Host.Outcome.fault := by
  cases i with
  | call nnn =>
    refine (execCall_eq nnn s).trans ?_
    by_cases h : s.sp.val < 16
    · simp [execFault, execNext, h, setIfInBounds_eq_set]
    · simp [execFault, h]
  | ret =>
    refine (execRet_eq s).trans ?_
    by_cases h : s.sp.val = 0 <;> simp [execFault, execNext, h]
  | drw x y n =>
    refine (execDrw_eq x y n s).trans ?_
    by_cases h : n = 0 ∨ s.base + n ≤ 4096 <;> simp [execFault, execNext, h]
  | ldB x => exact (execLdB_eq x s).trans (by simp only [execFault]; split <;> rfl)
  | stRegs x => exact (execStRegs_eq x s).trans (by simp only [execFault]; split <;> rfl)
  | ldRegs x => exact (execLdRegs_eq x s).trans (by simp only [execFault]; split <;> rfl)
  | _ => rfl

theorem exec_of_fault {i : Instr} {s : State} {f : Fault} (h : execFault i s = some f) : exec i s = .fault f := by
  rw [exec_eq, h, Option.elim_some]

theorem exec_of_none {i : Instr} {s : State} (h : execFault i s = none) : exec i s = .next (execNext i s) := by
  rw [exec_eq, h, Option.elim_none]

theorem exec_eq_fault_iff {i : Instr} {s : State} {f : Fault} : exec i s = .fault f ↔ execFault i s = some f := by
  refine ⟨fun h => ?_, exec_of_fault⟩
  cases hf : execFault i s with
  | none => rw [exec_of_none hf] at h; cases h
  | some g => rw [exec_of_fault hf] at h; cases h; rfl

theorem exec_eq_next_iff {i : Instr} {s t : State} :
    exec i s = .next t ↔ execFault i s = none ∧ execNext i s = t := by
  refine ⟨fun h => ?_, fun ⟨hf, ht⟩ => ht ▸ exec_of_none hf⟩
  cases hf : execFault i s with
  | none => rw [exec_of_none hf] at h; cases h; exact ⟨rfl, rfl⟩
  | some g => rw [exec_of_fault hf] at h; cases h

theorem exec_ne_refused (i : Instr) (s : State) (q : Refusal) : exec i s ≠ .refused q := by
  cases hf : execFault i s with
  | none => rw [exec_of_none hf]; nofun
  | some g => rw [exec_of_fault hf]; nofun

/-- A fault depends on the stack depth and on `I` alone. -/
theorem execFault_congr (i : Instr) {s t : State} (hsp : t.sp = s.sp) (hi : t.i = s.i) :
    execFault i t = execFault i s := by
  have hb : t.base = s.base := congrArg BitVec.toNat hi
  cases i with
  | _ => simp only [execFault, hsp, hb]

/-! ### What an instruction changes, field by field (R11 to R21) -/

section Frame

variable (i : Instr) (s : State)

theorem execNext_keys : (execNext i s).keys = s.keys := by
  cases i with
  | seImm | sneImm | seReg | sneReg | skp | sknp => exact skipIf_keys ..
  | _ => rfl

theorem execNext_i_writers (h : (execNext i s).i ≠ s.i) : ∃ x nnn, i = .ldI nnn ∨ i = .addI x ∨ i = .ldF x := by
  cases i with
  | ldI nnn => exact ⟨0, nnn, .inl rfl⟩
  | addI x => exact ⟨x, 0, .inr (.inl rfl)⟩
  | ldF x => exact ⟨x, 0, .inr (.inr rfl)⟩
  | seImm | sneImm | seReg | sneReg | skp | sknp => exact absurd (skipIf_i ..) h
  | _ => exact absurd rfl h

theorem execNext_stack_writers (h : (execNext i s).stack ≠ s.stack) : ∃ nnn, i = .call nnn := by
  cases i with
  | call nnn => exact ⟨nnn, rfl⟩
  | seImm | sneImm | seReg | sneReg | skp | sknp => exact absurd (skipIf_stack ..) h
  | _ => exact absurd rfl h

theorem execNext_sp_writers (h : (execNext i s).sp ≠ s.sp) : i = .ret ∨ ∃ nnn, i = .call nnn := by
  cases i with
  | ret => exact .inl rfl
  | call nnn => exact .inr ⟨nnn, rfl⟩
  | seImm | sneImm | seReg | sneReg | skp | sknp => exact absurd (skipIf_sp ..) h
  | _ => exact absurd rfl h

theorem execNext_dt_writers (h : (execNext i s).dt ≠ s.dt) : ∃ x, i = .ldDtVx x ∧ (execNext i s).dt = s.reg x := by
  cases i with
  | ldDtVx x => exact ⟨x, rfl, rfl⟩
  | seImm | sneImm | seReg | sneReg | skp | sknp => exact absurd (skipIf_dt ..) h
  | _ => exact absurd rfl h

theorem execNext_st_writers (h : (execNext i s).st ≠ s.st) : ∃ x, i = .ldStVx x ∧ (execNext i s).st = s.reg x := by
  cases i with
  | ldStVx x => exact ⟨x, rfl, rfl⟩
  | seImm | sneImm | seReg | sneReg | skp | sknp => exact absurd (skipIf_st ..) h
  | _ => exact absurd rfl h

theorem execNext_disp_writers (h : (execNext i s).disp ≠ s.disp) : i = .cls ∨ ∃ x y n, i = .drw x y n := by
  cases i with
  | cls => exact .inl rfl
  | drw x y n => exact .inr ⟨x, y, n, rfl⟩
  | seImm | sneImm | seReg | sneReg | skp | sknp => exact absurd (skipIf_disp ..) h
  | _ => exact absurd rfl h

theorem execNext_wait_writers (h : (execNext i s).wait ≠ s.wait) :
    ∃ x, i = .ldVxK x ∧ (execNext i s).wait = some x := by
  cases i with
  | ldVxK x => exact ⟨x, rfl, rfl⟩
  | seImm | sneImm | seReg | sneReg | skp | sknp => exact absurd (skipIf_wait ..) h
  | _ => exact absurd rfl h

theorem execNext_mem_writers (h : (execNext i s).mem ≠ s.mem) : ∃ x, i = .ldB x ∨ i = .stRegs x := by
  cases i with
  | ldB x => exact ⟨x, .inl rfl⟩
  | stRegs x => exact ⟨x, .inr rfl⟩
  | seImm | sneImm | seReg | sneReg | skp | sknp => exact absurd (skipIf_mem ..) h
  | _ => exact absurd rfl h

end Frame

/-- Settles O42: an instruction answers exactly its `execFault`, and the arms of that are the listed ones. -/
theorem instructionsFaultExactlyAsListed : Obligations.InstructionsFaultExactlyAsListed := by
  refine ⟨fun i s f => exec_eq_fault_iff.trans ?_, exec_ne_refused⟩
  cases i with
  | call nnn =>
    have : ¬s.sp.val < 16 ↔ s.sp.val = 16 := by omega
    simp [execFault, this, eq_comm]
  | ret => simp [execFault, eq_comm]
  | drw x y n =>
    have : n ≠ 0 ∧ 4096 < s.base + n ↔ 0 < n ∧ 4096 < s.i.toNat + n := by simp only [State.base]; omega
    simp [execFault, this, eq_comm]
  | ldB x =>
    rw [execFault, Option.ite_none_left_eq_some, Nat.not_le, State.base]
    simp [eq_comm]
  | stRegs x | ldRegs x =>
    rw [execFault, Option.ite_none_left_eq_some, Nat.not_le, State.base, ← Nat.add_assoc]
    simp [eq_comm]
  | _ => simp [execFault]

/-- Settles O47: the writers of `I`, of the stack entries and of SP. -/
theorem indexAndStackHaveTheirOwnWriters : Obligations.IndexAndStackHaveTheirOwnWriters := by
  intro i s t h
  obtain ⟨-, rfl⟩ := exec_eq_next_iff.mp h
  exact ⟨execNext_i_writers i s, execNext_stack_writers i s, execNext_sp_writers i s⟩

end Sys2Proof.Machine

/-! Proofs/Events: KEYPRESS, LOAD and RESET in closed form (60_exceptions.md section 7, 70_reset_and_hazards.md). -/

namespace Sys2Proof.Machine

/-! ### KEYPRESS (R224 to R226) -/

theorem deliver_keypress (key : Nat) (pressed : Bool) (s : State) :
    deliver (.keypress key pressed) s = commit s (keypress key pressed s) := rfl

theorem deliver_keypress_of_gt {key : Nat} (h : 15 < key) (pressed : Bool) (s : State) :
    deliver (.keypress key pressed) s = (s, .fault .invalidKeyCode) := by
  rw [deliver_keypress, keypress_of_ge (by omega), commit_fault]

/-- A press completes the wait (R225). -/
theorem deliver_press_of_wait {s : State} {r : Reg} (hw : s.wait = some r) {key : Nat} (h : key < 16) :
    deliver (.keypress key true) s =
      ({ s with v := s.v.set r.val (BitVec.ofNat 8 key), keys := s.keys.set key true, wait := none }, .ok) := by
  rw [deliver_keypress, keypress_of_lt h, hw]
  rfl

/-- A release, or a press while Running, only records the key (R224). -/
theorem deliver_keypress_records {s : State} {pressed : Bool} (hp : pressed = false ∨ s.wait = none) {key : Nat}
    (h : key < 16) :
    deliver (.keypress key pressed) s = ({ s with keys := s.keys.set key pressed }, .ok) := by
  rw [deliver_keypress, keypress_of_lt h]
  cases hw : s.wait with
  | none => rfl
  | some r =>
    obtain rfl | hn := hp
    · rfl
    · rw [hw] at hn; cases hn

/-- While Running, KEYPRESS changes nothing but the keys. -/
theorem deliver_keypress_of_running {s : State} (hw : s.wait = none) (key : Nat) (pressed : Bool) :
    ∃ keys, (deliver (.keypress key pressed) s).1 = { s with keys := keys } := by
  rcases Nat.lt_or_ge key 16 with h | h
  · exact ⟨_, congrArg Prod.fst (deliver_keypress_records (.inr hw) h)⟩
  · exact ⟨s.keys, congrArg Prod.fst (deliver_keypress_of_gt h pressed s)⟩

theorem getElem_set_keys (keys : Vector Bool 16) (key k : Fin 16) (b : Bool) :
    (keys.set key.val b)[k.val] = if k = key then b else keys[k.val] := by
  rw [Vector.getElem_set]
  exact if_congr (by rw [Fin.ext_iff, eq_comm]) rfl rfl

/-- A key code as a byte. -/
theorem keyCode_toNat {key : Nat} (h : key < 16) : (BitVec.ofNat 8 key).toNat = key := by
  rw [BitVec.toNat_ofNat, Nat.mod_eq_of_lt (by omega)]

/-- What a completing press leaves in the registers (R225). -/
theorem getElem_set_keyCode (s : State) (r q : Reg) (key : Fin 16) :
    ((s.v.set r.val (BitVec.ofNat 8 key.val))[q.val]).toNat = if q = r then key.val else (s.reg q).toNat := by
  refine (congrArg BitVec.toNat (reg_setReg s r q (BitVec.ofNat 8 key.val))).trans ?_
  split
  · exact keyCode_toNat key.isLt
  · rfl

/-- Settles O37: KEYPRESS by its three cases, the key above 15, the completing press and the mere record. -/
theorem keypressRecordsTheKey : Obligations.KeypressRecordsTheKey := by
  refine fun s pressed => ⟨fun key => ?_, fun key h => deliver_keypress_of_gt h pressed s⟩
  refine ⟨s.keys.set key.val pressed, fun k => getElem_set_keys s.keys key k pressed,
    fun hp => deliver_keypress_records hp key.isLt, ?_⟩
  rintro r rfl hw
  exact ⟨_, deliver_press_of_wait hw key.isLt, fun q => getElem_set_keyCode s r q key⟩

/-! ### A stored block, inside and outside (R42, R47) -/

theorem read_storeAll_inside (m : Memory) (a : Nat) {xs : List Byte} {k : Nat} (h : k < xs.length) :
    (storeAll m a xs).read (a + k) = xs[k] := by
  refine (read_storeAll m a (a + k) xs).trans ((dif_pos (by omega)).trans ?_)
  simp only [Nat.add_sub_cancel_left]

theorem read_storeAll_outside (m : Memory) {a c : Nat} {xs : List Byte} (h : c < a ∨ a + xs.length ≤ c) :
    (storeAll m a xs).read c = m.read c :=
  (read_storeAll m a c xs).trans (dif_neg (by omega))

/-! ### LOAD (R242 to R244) -/

/-- The state that a LOAD of a ROM that fits leaves (R242). -/
def State.loaded (s : State) (rom : List Byte) : State :=
  { s with
    mem := storeAll s.mem 0x200 rom, pc := BitVec.ofNat 16 0x200, v := Vector.replicate 16 0, i := 0, sp := 0
    dt := 0, st := 0, disp := blankDisplay, keys := Vector.replicate 16 false, wait := none }

theorem deliver_load_of_le {rom : List Byte} (h : rom.length ≤ 3584) (s : State) :
    deliver (.load rom) s = (s.loaded rom, .ok) :=
  congrArg (commit s) ((load_eq rom s).trans (if_pos h))

theorem deliver_load_of_gt {rom : List Byte} (h : 3584 < rom.length) (s : State) :
    deliver (.load rom) s = (s, .fault .romTooLarge) :=
  congrArg (commit s) ((load_eq rom s).trans (if_neg (by omega)))

theorem read_loaded_rom (s : State) (rom : List Byte) {k : Nat} (h : k < rom.length) :
    (s.loaded rom).mem.read (0x200 + k) = rom[k] :=
  read_storeAll_inside s.mem 0x200 h

theorem read_loaded_of_outside (s : State) {rom : List Byte} {a : Nat} (h : a < 0x200 ∨ 0x200 + rom.length ≤ a) :
    (s.loaded rom).mem.read a = s.mem.read a :=
  read_storeAll_outside s.mem h

/-- A cleared register file reads as 0. -/
theorem getElem_replicate_zero (q : Fin 16) : (Vector.replicate 16 (0 : Byte))[q.val] = 0 :=
  Vector.getElem_replicate q.isLt

/-- A cleared key latch reads as up. -/
theorem getElem_replicate_false (k : Fin 16) : (Vector.replicate 16 false)[k.val] = false :=
  Vector.getElem_replicate k.isLt

/-- Settles O39: the loaded state field by field; its memory is the ROM laid over the old one. -/
theorem loadRestartsWithTheRom : Obligations.LoadRestartsWithTheRom := fun rom s =>
  ⟨fun h => ⟨s.loaded rom, deliver_load_of_le h s, fun _ => read_loaded_rom s rom, fun _ => read_loaded_of_outside s,
    rfl, getElem_replicate_zero, rfl, rfl, rfl, rfl, pixel_blank, getElem_replicate_false, rfl⟩,
    fun h => deliver_load_of_gt h s⟩

/-! ### RESET (R25, R240) -/

theorem resetByte_font (k : Fin 80) : resetByte (Config.fontBase.val + k.val) = fontData[k.val]?.getD 0 := by
  have hlt : Config.fontBase.val + k.val < 0x200 := by
    have := Config.fontBase.isLt
    omega
  simp [resetByte, resetByteFor, Config.progBase, fontBase, hlt]

theorem resetByte_of_outside_font {a : Nat} (h : a < Config.fontBase.val ∨ Config.fontBase.val + 80 ≤ a) :
    resetByte a = 0 := by
  rw [resetByte, resetByteFor]
  split
  · split
    · next hb => exact List.getD_eq_default _ _ (by rw [fontData_length]; simp only [fontBase] at *; omega)
    · rfl
  · rfl

/-- Settles O38: the fields of the reset state one by one; its memory lists nothing, so it reads as the reset contents. -/
theorem resetZeroesAllButTheFont : Obligations.ResetZeroesAllButTheFont := fun _ =>
  ⟨rfl, getElem_replicate_zero, rfl, rfl, rfl, fun k => Vector.getElem_replicate k.isLt, rfl, rfl, pixel_blank,
    getElem_replicate_false, rfl, resetByte_font, fun _ => resetByte_of_outside_font⟩

/-! ### What the events other than TICK write (R4) -/

/-- Settles O52: KEYPRESS by its three cases; LOAD writes the ROM's extent only; the rest hold by definition. -/
theorem eventsWriteOnlyTheListedState : Obligations.EventsWriteOnlyTheListedState := by
  refine fun s => ⟨rfl, fun key pressed => ?_, rfl, rfl, fun rom => ?_⟩
  · rcases Nat.lt_or_ge key 16 with hk | hk
    · by_cases hp : pressed = false ∨ s.wait = none
      · exact ⟨s.v, _, s.wait, congrArg Prod.fst (deliver_keypress_records hp hk), fun q hq => absurd rfl hq⟩
      · obtain ⟨hp, hw⟩ := not_or.mp hp
        obtain rfl : pressed = true := Bool.eq_true_of_not_eq_false hp
        obtain ⟨r, hr⟩ := Option.ne_none_iff_exists'.mp hw
        refine ⟨_, _, none, congrArg Prod.fst (deliver_press_of_wait hr hk), fun q hq => ?_⟩
        obtain rfl : q = r := by
          by_contra hne
          exact hq (getElem_setReg_v_of_ne s _ hne)
        exact ⟨rfl, Nat.le_of_lt_succ hk, hr, rfl⟩
    · exact ⟨s.v, s.keys, s.wait, congrArg Prod.fst (deliver_keypress_of_gt hk pressed s), fun q hq => absurd rfl hq⟩
  · rcases Nat.lt_or_ge 3584 rom.length with h | h
    · rw [deliver_load_of_gt h]
      exact ⟨rfl, fun _ _ => rfl⟩
    · rw [deliver_load_of_le h]
      exact ⟨rfl, fun a => read_loaded_of_outside s⟩

end Sys2Proof.Machine

/-! Proofs/Cycle: the TICK: what a step and the event TICK answer, said once, and where PC goes (40_instruction_cycle.md,
41_control_flow.md). -/

namespace Sys2Proof.Machine

open Claims

/-! ### A step (R80) -/

theorem step_of_ok {s : State} {i : Instr} (hw : s.wait = none) (hi : s.nextInstr = .ok i) :
    step s = exec i s.advance := by
  rw [step_of_running hw, hi, andThen_ok]

theorem step_of_error {s : State} {f : Fault} (hw : s.wait = none) (hi : s.nextInstr = .error f) :
    step s = .fault f := by
  rw [step_of_running hw, hi, andThen_error, raise]

/-- Moving PC past an instruction changes none of its checks. -/
theorem execFault_advance (i : Instr) (s : State) : execFault i s.advance = execFault i s := execFault_congr i rfl rfl

/-- A step that answers a next state held a key-wait, or ran an instruction that met no fault. -/
theorem step_next_cases {s t : State} (h : step s = .next t) :
    (∃ r, s.wait = some r ∧ t = s) ∨
      (s.wait = none ∧ ∃ i, s.nextInstr = .ok i ∧ execFault i s = none ∧ t = execNext i s.advance) := by
  rcases step_next h with hwait | ⟨hw, i, hi, hexec⟩
  · exact .inl hwait
  · obtain ⟨hf, rfl⟩ := exec_eq_next_iff.mp hexec
    exact .inr ⟨hw, i, hi, execFault_advance i s ▸ hf, rfl⟩

/-! ### The event TICK (R80, R203) -/

/-- The byte on the `rand8` input is not looked at by the fetch. -/
theorem nextInstr_rand8 (s : State) (b : Byte) : State.nextInstr { s with rand8 := b } = s.nextInstr :=
  nextInstr_congr rfl rfl

theorem deliver_tick (b : Byte) (s : State) : deliver (.tick b) s = commit s (step { s with rand8 := b }) := rfl

theorem deliver_tick_of_wait {s : State} {r : Reg} (b : Byte) (hw : s.wait = some r) :
    deliver (.tick b) s = ({ s with rand8 := b }, .ok) := by
  rw [deliver_tick, step_of_wait (s := { s with rand8 := b }) hw, commit_next]

theorem deliver_tick_of_error {s : State} {f : Fault} (b : Byte) (hw : s.wait = none)
    (hi : s.nextInstr = .error f) : deliver (.tick b) s = (s, .fault f) := by
  rw [deliver_tick, step_of_error (s := { s with rand8 := b }) hw ((nextInstr_rand8 s b).trans hi), commit_fault]

theorem deliver_tick_of_execFault {s : State} {i : Instr} {f : Fault} (b : Byte) (hw : s.wait = none)
    (hi : s.nextInstr = .ok i) (hf : execFault i s = some f) : deliver (.tick b) s = (s, .fault f) :=
  deliver_tick_of_exec_fault b hw hi (exec_of_fault ((execFault_congr i rfl rfl).trans hf))

theorem deliver_tick_of_next {s : State} {i : Instr} (b : Byte) (hw : s.wait = none)
    (hi : s.nextInstr = .ok i) (hf : execFault i s = none) :
    deliver (.tick b) s = (execNext i (State.advance { s with rand8 := b }), .ok) := by
  have hexec : exec i (State.advance { s with rand8 := b }) = .next (execNext i (State.advance { s with rand8 := b })) :=
    exec_of_none ((execFault_congr i (s := s) rfl rfl).trans hf)
  rw [deliver_tick, step_of_ok (s := { s with rand8 := b }) hw ((nextInstr_rand8 s b).trans hi), hexec, commit_next]

/-- A TICK in state `s` faults with `f`: at the fetch or the decoder, or in the instruction itself. -/
def State.TickFaults (s : State) (f : Fault) : Prop :=
  s.wait = none ∧ (s.nextInstr = .error f ∨ ∃ i, s.nextInstr = .ok i ∧ execFault i s = some f)

theorem deliver_tick_of_tickFaults {s : State} {f : Fault} (b : Byte) (h : s.TickFaults f) :
    deliver (.tick b) s = (s, .fault f) := by
  obtain ⟨hw, hi | ⟨i, hi, hf⟩⟩ := h
  · exact deliver_tick_of_error b hw hi
  · exact deliver_tick_of_execFault b hw hi hf

/-- Everything a TICK can do: hold a key-wait, fault, or run an instruction. -/
theorem tick_cases (s : State) :
    (∃ r, s.wait = some r) ∨ (∃ f, s.TickFaults f) ∨
      (s.wait = none ∧ ∃ i, s.nextInstr = .ok i ∧ execFault i s = none) := by
  cases hw : s.wait with
  | some r => exact .inl ⟨r, rfl⟩
  | none =>
    cases hi : s.nextInstr with
    | error f => exact .inr (.inl ⟨f, hw, .inl hi⟩)
    | ok i =>
      cases hf : execFault i s with
      | some f => exact .inr (.inl ⟨f, hw, .inr ⟨i, hi, hf⟩⟩)
      | none => exact .inr (.inr ⟨rfl, i, rfl, hf⟩)

theorem tickFaults_of_response {s : State} {b : Byte} {f : Fault} (h : (deliver (.tick b) s).2 = .fault f) :
    s.TickFaults f := by
  rcases tick_cases s with ⟨r, hw⟩ | ⟨g, hg⟩ | ⟨hw, i, hi, hf⟩
  · rw [deliver_tick_of_wait b hw] at h; cases h
  · rw [deliver_tick_of_tickFaults b hg] at h; cases h; exact hg
  · rw [deliver_tick_of_next b hw hi hf] at h; cases h

/-! ### A fault stays (R204) -/

/-- What a TICK faults with depends on the key-wait, PC, memory, the stack depth and `I` alone. -/
theorem tickFaults_congr {s t : State} {f : Fault} (h : s.TickFaults f) (hwait : t.wait = s.wait) (hpc : t.pc = s.pc)
    (hmem : t.mem = s.mem) (hsp : t.sp = s.sp) (hi : t.i = s.i) : t.TickFaults f := by
  simpa only [State.TickFaults, hwait, nextInstr_congr hpc hmem, execFault_congr _ hsp hi] using h

theorem tickFaults_deliver {s : State} {f : Fault} {e : Event} (h : s.TickFaults f) (he : curesNothing e = true) :
    State.TickFaults (deliver e s).1 f := by
  cases e with
  | reset | load => cases he
  | tick b => rwa [deliver_tick_of_tickFaults b h]
  | tickTimers => exact tickFaults_congr h rfl rfl rfl rfl rfl
  | keypress key pressed =>
    obtain ⟨keys, ht⟩ := deliver_keypress_of_running h.1 key pressed
    rw [ht]
    exact tickFaults_congr h rfl rfl rfl rfl rfl
  | getDisplay | getSound => exact h

theorem tickFaults_deliverAll {f : Fault} {es : List Event} (hes : ∀ e ∈ es, curesNothing e = true) :
    ∀ {s : State}, s.TickFaults f → State.TickFaults (deliverAll es s).1 f := by
  induction es with
  | nil => exact fun h => h
  | cons e es ih =>
    obtain ⟨he, hes⟩ := List.forall_mem_cons.mp hes
    exact fun h => ih hes (tickFaults_deliver h he)

/-- Settles O44: that the next TICK faults with `f` is kept by every event but LOAD and RESET, and `rand8` has no part in
it. -/
theorem faultIsStickyUntilLoadOrReset : Obligations.FaultIsStickyUntilLoadOrReset := by
  intro s b c f es h hes
  exact congrArg Prod.snd (deliver_tick_of_tickFaults c (tickFaults_deliverAll hes (tickFaults_of_response h)))

/-! ### Where PC goes (R15) -/

theorem pc_skipIf_advance {s : State} (hp : s.pc.toNat ≤ 0xFFE) (c : Bool) :
    (s.advance.skipIf c).pc.toNat = if c then s.pc.toNat + 4 else s.pc.toNat + 2 := by
  have h2 : s.advance.pc.toNat = s.pc.toNat + 2 := advance_pc_toNat hp
  cases c with
  | false => exact h2
  | true =>
    show (s.advance.pc + 2#16).toNat = s.pc.toNat + 4
    rw [BitVec.toNat_add, h2, show (2#16).toNat = 2 from rfl]
    omega

theorem execNext_pc {s : State} {i : Instr} (hp : s.pc.toNat ≤ 0xFFE) (hf : execFault i s = none) :
    (execNext i s.advance).pc.toNat = pcAfter s s.pc.toNat i := by
  cases i with
  | jp nnn | call nnn => exact zext16_imm_toNat nnn
  | jpV0 nnn => exact zext16_byte_add_imm_toNat (s.reg 0) nnn
  | ret =>
    have h0 : s.sp.val ≠ 0 := fun h0 => by simp [execFault, h0] at hf
    rw [pcAfter, dif_neg h0]
    rfl
  | seImm x nn => exact (pc_skipIf_advance hp _).trans (by simp only [pcAfter, beq_iff_eq]; rfl)
  | sneImm x nn => exact (pc_skipIf_advance hp _).trans (by simp only [pcAfter, bne_iff_ne, ite_not]; rfl)
  | seReg x y => exact (pc_skipIf_advance hp _).trans (by simp only [pcAfter, beq_iff_eq]; rfl)
  | sneReg x y => exact (pc_skipIf_advance hp _).trans (by simp only [pcAfter, bne_iff_ne, ite_not]; rfl)
  | skp x => exact pc_skipIf_advance hp _
  | sknp x => exact (pc_skipIf_advance hp _).trans (by
      simp only [pcAfter, Bool.not_eq_true', ← Bool.not_eq_true, ite_not]; rfl)
  | _ => exact advance_pc_toNat hp

/-- Settles O7: PC follows the list where the instruction completes; a fault keeps the state, a wait all but the input. -/
theorem everyInstructionLeavesPcAsListed : Obligations.EveryInstructionLeavesPcAsListed := by
  refine ⟨fun s t i hw hi h => ?_, fun s t b f h => ?_, fun s t b r q hw h => ?_⟩
  · rcases step_next_cases h with ⟨r, hr, -⟩ | ⟨-, j, hj, hf, rfl⟩
    · rw [hw] at hr; cases hr
    · obtain rfl : i = j := Except.ok.inj (hi.symm.trans hj)
      exact execNext_pc (pc_le_of_nextInstr hi) hf
  · exact congrArg State.pc (faultingEventChangesNothing _ s t f h)
  · rw [deliver_tick_of_wait b hw] at h
    cases h
    rfl

/-! ### The `rand8` input (R87) -/

theorem skipIf_rand8_swap (s : State) (b : Byte) (c : Bool) :
    State.skipIf { s with rand8 := b } c = { s.skipIf c with rand8 := b } := by
  cases c <;> rfl

/-- Every instruction but CXNN carries the byte on the input along unread. -/
theorem execNext_rand8 {i : Instr} (hi : ∀ x nn, i ≠ .rnd x nn) (s : State) (b : Byte) :
    execNext i { s with rand8 := b } = { execNext i s with rand8 := b } := by
  cases i with
  | rnd x nn => exact absurd rfl (hi x nn)
  | seImm | sneImm | seReg | sneReg | skp | sknp => exact skipIf_rand8_swap ..
  | _ => rfl

/-- Settles O8: the two TICKs fault alike, or hold the wait alike, or run one instruction that does not read the byte. -/
theorem rand8MattersOnlyForRnd : Obligations.Rand8MattersOnlyForRnd := by
  intro s b c hrnd
  rcases tick_cases s with ⟨r, hw⟩ | ⟨f, hf⟩ | ⟨hw, i, hi, hf⟩
  · rw [deliver_tick_of_wait b hw, deliver_tick_of_wait c hw]
    exact ⟨rfl, rfl⟩
  · rw [deliver_tick_of_tickFaults b hf, deliver_tick_of_tickFaults c hf]
    exact ⟨rfl, rfl⟩
  · have hne : ∀ x nn, i ≠ .rnd x nn := fun x nn h => hrnd x nn hw (h ▸ hi)
    have hunread : ∀ d, execNext i (State.advance { s with rand8 := d }) = { execNext i s.advance with rand8 := d } :=
      execNext_rand8 hne s.advance
    rw [deliver_tick_of_next b hw hi hf, deliver_tick_of_next c hw hi hf, hunread b, hunread c]
    exact ⟨rfl, rfl⟩

/-! ### The shape of a TICK (R80, R205) -/

theorem nextInstr_of_out {s : State} (h : 4096 < s.pc.toNat + 2) : s.nextInstr = .error .outOfBoundsAccess := by
  rw [nextInstr_eq, if_neg (by omega)]

/-- Settles O6: the waiting step, the two faults before the instruction in their order, and the instruction itself; the
event commits the step. -/
theorem stepRunsTheDecodedInstruction : Obligations.StepRunsTheDecodedInstruction := fun s =>
  ⟨fun _ => step_of_wait, fun hw hp => step_of_error hw (nextInstr_of_out hp),
    fun _ hw hp hd => step_of_error hw (nextInstr_of_invalid (by omega) hd),
    fun _ hw hp hd => step_of_ok hw (nextInstr_of_decode (by omega) hd),
    fun _ _ h => congrArg (commit s) h, fun _ _ h => congrArg (commit s) h⟩

/-! ### The end of a run (R88) -/

theorem ended_congr {s t : State} (h : s.Ended) (hwait : t.wait = s.wait) (hpc : t.pc = s.pc) (hmem : t.mem = s.mem) :
    t.Ended := by
  simpa only [State.Ended, hwait, nextInstr_congr hpc hmem, hpc] using h

/-- Settles O9: the jump puts PC back where it was; neither host event touches PC, memory or, while Running, the wait. -/
theorem endedRunStaysEnded : Obligations.EndedRunStaysEnded := by
  intro s hs
  obtain ⟨hw, nnn, hi, hpc⟩ := id hs
  refine ⟨?_, fun t h => ?_, fun key pressed t h => ?_⟩
  · have hz : zext16 nnn = s.pc := BitVec.eq_of_toNat_eq ((zext16_imm_toNat nnn).trans hpc)
    rw [step_of_ok hw hi, exec_jp, hz]
    rfl
  · cases h
    exact ⟨ended_congr hs rfl rfl rfl, rfl⟩
  · obtain ⟨keys, ht⟩ := deliver_keypress_of_running hw key pressed
    obtain rfl : t = { s with keys := keys } := by rwa [deliver_keypress, h, commit_next] at ht
    exact ⟨ended_congr hs rfl rfl rfl, rfl⟩

/-! ### CALL and RET together (R100, R102) -/

theorem step_ret {t : State} {k : Fin 16} (hw : t.wait = none) (hi : t.nextInstr = .ok .ret)
    (hk : t.sp.val = k.val + 1) : step t = .next { t with sp := k.castSucc, pc := t.stack[k.val] } :=
  (step_of_ok hw hi).trans (exec_ret_of_live (s := t.advance) hk)

/-- Settles O13: the RET pops the one entry that the CALL pushed. -/
theorem callThenRetComesBack : Obligations.CallThenRetComesBack := by
  intro s nnn hw hsp hi hn h0 h1
  refine ⟨_, s.stack.set s.sp.val (s.pc + 2),
    (step_of_ok hw hi).trans (exec_call_of_lt (s := s.advance) nnn hsp), ?_, fun k hk => ?_⟩
  · have hz : (zext16 nnn).toNat = nnn.toNat := zext16_imm_toNat nnn
    refine (step_ret (k := ⟨s.sp.val, hsp⟩) (by exact hw) (nextInstr_of_decode ?_ ?_) rfl).trans ?_
    · show (zext16 nnn).toNat ≤ 0xFFE
      omega
    · show decode (s.mem.read (zext16 nnn).toNat ++ s.mem.read ((zext16 nnn).toNat + 1)) = .ok .ret
      rw [hz, h0, h1]
      rfl
    · have htop : (s.stack.set s.sp.val (s.pc + 2))[s.sp.val] = s.pc + 2 := Vector.getElem_set_self hsp
      exact congrArg (fun p => Host.Outcome.next { s with pc := p, stack := s.stack.set s.sp.val (s.pc + 2) }) htop
  · exact Vector.getElem_set_ne _ _ (Ne.symm hk)

/-! ### The interface's placing of a word -/

/-- `placeWord` puts PC where an instruction can be fetched. -/
theorem placeWord_pc_le (s : State) (hi lo : Byte) : (s.placeWord hi lo).pc.toNat ≤ 0xFFE := by
  simp only [State.placeWord]
  split
  · next h => exact h.2
  · decide

theorem nextInstr_placeWord (s : State) {hi lo : Byte} {i : Instr} (h : decode (wordOfBytes hi lo) = .ok i) :
    (s.placeWord hi lo).nextInstr = .ok i := by
  refine nextInstr_of_decode (placeWord_pc_le s hi lo) ?_
  rw [← h]
  simp [State.placeWord, wordOfBytes]

theorem tableWord_toNat (w : Word) : tableWord 16 w.toNat = w := by
  rw [tableWord, Nat.mod_eq_of_lt w.isLt, BitVec.ofNat_toNat, BitVec.setWidth_eq]

/-- Settles O41: the two bytes at PC are read back as the word, which decodes to the instruction. -/
theorem placedWordIsTheNextToRun : Obligations.PlacedWordIsTheNextToRun := by
  intro s i hwf
  have hd : decode (wordOfBytes (hiByte (tableWord 16 (encode i).toNat)) (loByte (tableWord 16 (encode i).toNat))) =
      .ok i := by
    rw [wordOfBytes_bytes, tableWord_toNat, decode_encode hwf]
  exact step_of_ok rfl (nextInstr_placeWord s hd)

end Sys2Proof.Machine

/-! Proofs/Invariant: the invariant of reachable states, kept by every step and every event (10_state.md sections 5, 6). -/

namespace Sys2Proof.Machine

open Claims

/-! ### The invariant's clauses, for one instruction (R16, R100) -/

theorem pcAfter_le {s : State} (hs : s.Inv) (hp : s.pc.toNat ≤ 0xFFE) (i : Instr) :
    pcAfter s s.pc.toNat i ≤ 0x10FE := by
  cases i with
  | jp nnn | call nnn =>
    have := nnn.isLt
    simp only [pcAfter]
    omega
  | jpV0 nnn =>
    have := nnn.isLt
    have := (s.reg 0).isLt
    simp only [pcAfter]
    omega
  | ret =>
    rw [pcAfter]
    split
    · omega
    · have hlive := hs.live ⟨s.sp.val - 1, by omega⟩ (by show s.sp.val - 1 < s.sp.val; omega)
      exact hlive.2.trans (by decide)
  | seImm | sneImm | seReg | sneReg | skp | sknp =>
    rw [pcAfter]
    split <;> omega
  | _ =>
    simp only [pcAfter]
    omega

theorem execNext_mem_wf {s : State} {i : Instr} (hm : s.mem.wf) (hf : execFault i s = none) :
    (execNext i s).mem.wf := by
  cases i with
  | ldB x =>
    refine wf_storeAll hm ?_
    simpa [execFault, bcdDigits] using hf
  | stRegs x =>
    refine wf_storeAll hm ?_
    simpa [execFault] using hf
  | seImm | sneImm | seReg | sneReg | skp | sknp => exact (skipIf_mem ..).symm ▸ hm
  | _ => exact hm

/-- Every live stack entry is the address after some CALL (R100). -/
def State.LiveEntries (s : State) : Prop :=
  ∀ k : Fin 16, k.val < s.sp.val → 2 ≤ s.stack[k.val].toNat ∧ s.stack[k.val].toNat ≤ 0x1000

theorem skipIf_liveEntries {s : State} (h : s.LiveEntries) (c : Bool) : (s.skipIf c).LiveEntries := by
  cases c <;> exact h

/-- A CALL pushes PC, which is past an instruction; a RET only takes an entry off. -/
theorem execNext_liveEntries {s : State} {i : Instr} (hs : s.LiveEntries) (hf : execFault i s = none)
    (hpc : 2 ≤ s.pc.toNat ∧ s.pc.toNat ≤ 0x1000) : (execNext i s).LiveEntries := by
  cases i with
  | call nnn =>
    intro k hk
    have hk : k.val < min (s.sp.val + 1) 16 := hk
    show 2 ≤ ((s.stack.setIfInBounds s.sp.val s.pc)[k.val]).toNat ∧
      ((s.stack.setIfInBounds s.sp.val s.pc)[k.val]).toNat ≤ 0x1000
    rw [Vector.getElem_setIfInBounds k.isLt]
    split
    · exact hpc
    · exact hs k (by omega)
  | ret =>
    intro k hk
    have hk : k.val < s.sp.val - 1 := hk
    exact hs k (by omega)
  | seImm | sneImm | seReg | sneReg | skp | sknp => exact skipIf_liveEntries hs _
  | _ => exact hs

/-! ### Steps and events keep the invariant -/

theorem inv_execNext {s : State} {i : Instr} (hs : s.Inv) (hp : s.pc.toNat ≤ 0xFFE) (hf : execFault i s = none) :
    (execNext i s.advance).Inv where
  mem_wf := execNext_mem_wf (s := s.advance) hs.mem_wf ((execFault_advance i s).trans hf)
  pc_le := (execNext_pc hp hf).trans_le (pcAfter_le hs hp i)
  live := by
    have hpc : s.advance.pc.toNat = s.pc.toNat + 2 := advance_pc_toNat hp
    exact execNext_liveEntries (s := s.advance) hs.live ((execFault_advance i s).trans hf) (by omega)

theorem inv_congr {s t : State} (hs : s.Inv) (hmem : t.mem = s.mem) (hpc : t.pc = s.pc) (hstack : t.stack = s.stack)
    (hsp : t.sp = s.sp) : t.Inv :=
  ⟨hmem ▸ hs.mem_wf, hpc ▸ hs.pc_le, by rw [hstack, hsp]; exact hs.live⟩

/-- With an empty stack no entry is live. -/
theorem inv_of_empty {s : State} (hmem : s.mem.wf) (hpc : s.pc.toNat ≤ 0x10FE) (hsp : s.sp = 0) : s.Inv :=
  ⟨hmem, hpc, fun k hk => by rw [hsp] at hk; exact absurd hk (Nat.not_lt_zero _)⟩

theorem inv_reset : State.reset.Inv := inv_of_empty wf_nil (by decide) rfl

/-- Settles O53: nothing is listed, PC is 0 and the stack is empty. -/
theorem resetStateMeetsTheInvariant : Obligations.ResetStateMeetsTheInvariant := inv_reset

/-- Settles O54: a step holds the wait, or runs one instruction that meets no fault, which keeps each clause. -/
theorem stepKeepsTheInvariant : Obligations.StepKeepsTheInvariant := by
  intro s t hs h
  rcases step_next_cases h with ⟨r, -, rfl⟩ | ⟨-, i, hi, hf, rfl⟩
  · exact hs
  · exact inv_execNext hs (pc_le_of_nextInstr hi) hf

theorem inv_tick {s : State} (hs : s.Inv) (b : Byte) : (deliver (.tick b) s).1.Inv := by
  rcases tick_cases s with ⟨r, hw⟩ | ⟨f, hf⟩ | ⟨hw, i, hi, hf⟩
  · rw [deliver_tick_of_wait b hw]
    exact inv_congr hs rfl rfl rfl rfl
  · rwa [deliver_tick_of_tickFaults b hf]
  · rw [deliver_tick_of_next b hw hi hf]
    exact inv_execNext (s := { s with rand8 := b }) (inv_congr hs rfl rfl rfl rfl) (pc_le_of_nextInstr hi)
      ((execFault_congr i rfl rfl).trans hf)

theorem inv_load {s : State} (hs : s.Inv) (rom : List Byte) : (deliver (.load rom) s).1.Inv := by
  rcases Nat.lt_or_ge 3584 rom.length with h | h
  · rwa [deliver_load_of_gt h]
  · rw [deliver_load_of_le h]
    exact inv_of_empty (wf_storeAll hs.mem_wf (by omega)) (by decide : (0x200#16).toNat ≤ 0x10FE) rfl

/-- Settles O55: RESET and LOAD empty the stack; the other host events leave memory, PC and the stack alone. -/
theorem everyEventKeepsTheInvariant : Obligations.EveryEventKeepsTheInvariant := by
  intro e s hs
  cases e with
  | reset => exact inv_congr inv_reset rfl rfl rfl rfl
  | load rom => exact inv_load hs rom
  | tick b => exact inv_tick hs b
  | tickTimers => exact inv_congr hs rfl rfl rfl rfl
  | keypress key pressed =>
    obtain ⟨-, hkey, -⟩ := eventsWriteOnlyTheListedState s
    obtain ⟨v, keys, wait, ht, -⟩ := hkey key pressed
    rw [ht]
    exact inv_congr hs rfl rfl rfl rfl
  | getDisplay | getSound => exact hs

/-! ### Histories (R5) -/

theorem inv_deliverAll {s : State} (hs : s.Inv) (es : List Event) : (deliverAll es s).1.Inv := by
  induction es generalizing s with
  | nil => exact hs
  | cons e es ih => exact ih (everyEventKeepsTheInvariant e s hs)

/-- Settles O56: the invariant holds at reset and along every finite history, and bounds PC. -/
theorem pcNeverPassesItsBound : Obligations.PcNeverPassesItsBound := fun es => (inv_deliverAll inv_reset es).pc_le

/-- Settles O57: what every event keeps holds throughout. -/
theorem endlessHistoriesKeepTheInvariant : Obligations.EndlessHistoriesKeepTheInvariant := fun h s hs =>
  stateAt_induction h s hs everyEventKeepsTheInvariant

end Sys2Proof.Machine

/-! Proofs/Timers: who writes the timers, the display and the keys; the fair timer (10_state.md sections 7 to 9). -/

namespace Sys2Proof.Machine

/-! ### A TICK, field by field -/

/-- Settles O50: a wait changes nothing; an instruction changes the display only as CLS or DRW, the keys never. -/
theorem displayAndKeysHaveTheirOwnWriters : Obligations.DisplayAndKeysHaveTheirOwnWriters := by
  intro s t h
  rcases step_next_cases h with ⟨r, -, rfl⟩ | ⟨hw, i, hi, -, rfl⟩
  · exact ⟨rfl, fun hd => absurd rfl hd⟩
  · refine ⟨execNext_keys i s.advance, fun hd => ⟨hw, ?_⟩⟩
    rcases execNext_disp_writers i s.advance hd with rfl | ⟨x, y, n, rfl⟩
    · exact .inl hi
    · exact .inr ⟨x, y, n, hi⟩

/-- A countdown that changes a timer takes exactly one off (R220). -/
theorem countDown_toNat_of_ne {b : Byte} (h : countDown b ≠ b) : (countDown b).toNat + 1 = b.toNat := by
  have hn : (countDown b).toNat ≠ b.toNat := BitVec.toNat_ne_iff_ne.mpr h
  rw [countDown_toNat] at hn ⊢
  omega

/-- KEYPRESS leaves both timers. -/
theorem deliver_keypress_timers (key : Nat) (pressed : Bool) (s : State) :
    (deliver (.keypress key pressed) s).1.dt = s.dt ∧ (deliver (.keypress key pressed) s).1.st = s.st := by
  obtain ⟨-, hkey, -⟩ := eventsWriteOnlyTheListedState s
  obtain ⟨v, keys, wait, ht, -⟩ := hkey key pressed
  rw [ht]
  exact ⟨rfl, rfl⟩

/-- A LOAD clears both timers, or faults and leaves them. -/
theorem deliver_load_timers (rom : List Byte) (s : State) :
    ((deliver (.load rom) s).1.dt = 0 ∧ (deliver (.load rom) s).1.st = 0) ∨ (deliver (.load rom) s).1 = s := by
  rcases Nat.lt_or_ge 3584 rom.length with h | h
  · exact .inr (congrArg Prod.fst (deliver_load_of_gt h s))
  · rw [deliver_load_of_le h]
    exact .inl ⟨rfl, rfl⟩

/-- Settles O49: FX15 and FX18 among the instructions; TICK_TIMERS, LOAD and RESET among the other events. -/
theorem timersAreSetByTwoInstructionsOnly : Obligations.TimersAreSetByTwoInstructionsOnly := by
  refine ⟨fun s t h => ?_, fun e s he => ?_, rfl, rfl⟩
  · rcases step_next_cases h with ⟨r, -, rfl⟩ | ⟨hw, i, hi, -, rfl⟩
    · exact ⟨fun hd => absurd rfl hd, fun hd => absurd rfl hd⟩
    · refine ⟨fun hd => ⟨hw, ?_⟩, fun hd => ⟨hw, ?_⟩⟩
      · obtain ⟨x, rfl, hx⟩ := execNext_dt_writers i s.advance hd
        exact ⟨x, hi, hx⟩
      · obtain ⟨x, rfl, hx⟩ := execNext_st_writers i s.advance hd
        exact ⟨x, hi, hx⟩
  · cases e with
    | tick b => exact absurd rfl (he b)
    | reset => exact ⟨fun _ => .inr ⟨.inl rfl, rfl⟩, fun _ => .inr ⟨.inl rfl, rfl⟩⟩
    | load rom =>
      rcases deliver_load_timers rom s with ⟨hd, hs⟩ | h
      · exact ⟨fun _ => .inr ⟨.inr ⟨rom, rfl⟩, hd⟩, fun _ => .inr ⟨.inr ⟨rom, rfl⟩, hs⟩⟩
      · exact ⟨fun hd => absurd (congrArg State.dt h) hd, fun hd => absurd (congrArg State.st h) hd⟩
    | tickTimers =>
      exact ⟨fun hd => .inl ⟨rfl, countDown_toNat_of_ne hd⟩, fun hd => .inl ⟨rfl, countDown_toNat_of_ne hd⟩⟩
    | keypress key pressed =>
      obtain ⟨hdt, hst⟩ := deliver_keypress_timers key pressed s
      exact ⟨fun hd => absurd hdt hd, fun hd => absurd hst hd⟩
    | getDisplay | getSound => exact ⟨fun hd => absurd rfl hd, fun hd => absurd rfl hd⟩

/-! ### The timer runs out (R220, R252) -/

theorem dt_tick_eq {s : State} {b : Byte} (he : ¬(Event.tick b).SetsDelay s) : (deliver (.tick b) s).1.dt = s.dt := by
  rcases tick_cases s with ⟨r, hw⟩ | ⟨f, hf⟩ | ⟨hw, i, hi, hf⟩
  · rw [deliver_tick_of_wait b hw]
  · rw [deliver_tick_of_tickFaults b hf]
  · rw [deliver_tick_of_next b hw hi hf]
    by_contra hd
    obtain ⟨x, rfl, -⟩ := execNext_dt_writers i _ hd
    exact he ⟨b, x, rfl, hw, hi⟩

/-- No event but a TICK of FX15 raises DT. -/
theorem dt_deliver_le {e : Event} {s : State} (he : ¬e.SetsDelay s) : (deliver e s).1.dt.toNat ≤ s.dt.toNat := by
  cases e with
  | reset => exact Nat.zero_le _
  | load rom =>
    rcases deliver_load_timers rom s with ⟨hd, -⟩ | h
    · rw [hd]; exact Nat.zero_le _
    · rw [h]
  | tick b => rw [dt_tick_eq he]
  | tickTimers => exact (countDown_toNat s.dt).trans_le (Nat.sub_le _ _)
  | keypress key pressed => rw [(deliver_keypress_timers key pressed s).1]
  | getDisplay | getSound => exact le_rfl

/-- A number that never rises from `n` on and is less by one after infinitely many points reaches 0: by induction on
its value. -/
theorem exists_zero_of_falls {d : Nat → Nat} {n : Nat} (hle : ∀ m, n ≤ m → d (m + 1) ≤ d m)
    (hfall : ∀ m, ∃ k, m ≤ k ∧ d (k + 1) = d k - 1) {m : Nat} (hm : n ≤ m) : ∃ k, m ≤ k ∧ d k = 0 := by
  have hanti : ∀ {a b}, n ≤ a → a ≤ b → d b ≤ d a := fun {a b} ha hab => by
    induction b, hab using Nat.le_induction with
    | base => exact le_rfl
    | succ b hab ih => exact (hle b (ha.trans hab)).trans ih
  induction hv : d m using Nat.strong_induction_on generalizing m with
  | _ v ih =>
    rcases Nat.eq_zero_or_pos v with rfl | hpos
    · exact ⟨m, le_rfl, hv⟩
    · obtain ⟨k, hmk, hk⟩ := hfall m
      have hkm : d k ≤ d m := hanti hm hmk
      obtain ⟨j, hj, h0⟩ := ih (d (k + 1)) (by omega) (by omega) rfl
      exact ⟨j, by omega, h0⟩

/-- Settles O59: DT never rises from event `n` on, each TICK_TIMERS takes one off, and at 0 it stays. -/
theorem fairTimersRunOutAndStayOut : Obligations.FairTimersRunOutAndStayOut := by
  intro h s n hset
  have hle : ∀ m, n ≤ m → (stateAt h s (m + 1)).dt.toNat ≤ (stateAt h s m).dt.toNat := fun m hm =>
    dt_deliver_le (hset m hm)
  refine ⟨hle, fun hfair => ?_⟩
  have hfall : ∀ m, ∃ k, m ≤ k ∧ (stateAt h s (k + 1)).dt.toNat = (stateAt h s k).dt.toNat - 1 := fun m => by
    obtain ⟨k, hk, he⟩ := hfair m
    exact ⟨k, hk, by rw [stateAt_succ, he, deliver_tickTimers]; exact countDown_toNat _⟩
  obtain ⟨m, hm, h0⟩ := exists_zero_of_falls (d := fun m => (stateAt h s m).dt.toNat) hle hfall le_rfl
  refine ⟨m, hm, fun k hk => ?_⟩
  induction k, hk using Nat.le_induction with
  | base => exact BitVec.eq_of_toNat_eq h0
  | succ k hk ih =>
    have hle0 := hle k (hm.trans hk)
    rw [ih] at hle0
    exact BitVec.eq_of_toNat_eq (Nat.le_zero.mp hle0)

end Sys2Proof.Machine

/-! Proofs/KeyWait: the key skips, the key-wait and its transitions (45_keypad_timers.md, 10_state.md section 10). -/

namespace Sys2Proof.Machine

/-! ### The key skips (R170 to R172) -/

/-- Settles O32: both skips are `skipIf` on the key that the low nibble names. -/
theorem keySkipsTestTheLowNibblesKey : Obligations.KeySkipsTestTheLowNibblesKey := by
  intro x k s hk
  obtain rfl : k = lowNibble (s.reg x) := Fin.ext (hk.trans (lowNibble_val _).symm)
  refine ⟨congrArg Host.Outcome.next (skipIf_eq s _), congrArg Host.Outcome.next ((skipIf_eq s _).trans ?_)⟩
  simp only [Bool.not_eq_true']
  rfl

/-! ### The wait holds, and ends (R86, R225) -/

theorem deliverAll_ticks_of_wait {r : Reg} (bs : List Byte) {s : State} (hw : s.wait = some r) :
    ∃ b, (deliverAll (bs.map Event.tick) s).1 = { s with rand8 := b } := by
  induction bs generalizing s with
  | nil => exact ⟨s.rand8, rfl⟩
  | cons c bs ih =>
    rw [List.map_cons, deliverAll_cons, deliver_tick_of_wait c hw]
    exact ih (s := { s with rand8 := c }) hw

/-- Settles O33: TICKs, then a release, leave the wait; a press writes the key's code and ends it. -/
theorem keyWaitHoldsUntilAPress : Obligations.KeyWaitHoldsUntilAPress := by
  refine fun x s => ⟨rfl, fun hw => ⟨fun bs => deliverAll_ticks_of_wait bs hw, fun key => ⟨?_, ?_⟩⟩⟩
  · exact ⟨_, deliver_keypress_records (.inl rfl) key.isLt, fun k => getElem_set_keys s.keys key k false⟩
  · refine ⟨_, _, deliver_press_of_wait hw key.isLt, ?_, fun q => getElem_setReg_v_of_ne s _,
      fun k => getElem_set_keys s.keys key k true⟩
    exact (getElem_set_keyCode s x x key).trans (if_pos rfl)

/-! ### The transition table (R21) -/

theorem wait_press {s : State} {key : Nat} (hk : key ≤ 15) : (deliver (.keypress key true) s).1.wait = none := by
  cases hw : s.wait with
  | none => rw [deliver_keypress_records (.inr hw) (by omega)]; exact hw
  | some r => rw [deliver_press_of_wait hw (by omega)]

theorem wait_load {rom : List Byte} (h : rom.length ≤ 3584) (s : State) : (deliver (.load rom) s).1.wait = none := by
  rw [deliver_load_of_le h]
  rfl

/-- From Running only a TICK of FX0A leads to AwaitingKey. -/
theorem wait_deliver_of_running {s : State} (hw : s.wait = none) (e : Event) (h : (deliver e s).1.wait ≠ none) :
    ∃ b x, e = .tick b ∧ s.nextInstr = .ok (.ldVxK x) ∧ (deliver e s).1.wait = some x := by
  cases e with
  | reset => exact absurd rfl h
  | load rom =>
    rcases Nat.lt_or_ge 3584 rom.length with hr | hr
    · rw [deliver_load_of_gt hr] at h; exact absurd hw h
    · exact absurd (wait_load hr s) h
  | tick b =>
    rcases tick_cases s with ⟨r, hr⟩ | ⟨f, hf⟩ | ⟨-, i, hi, hf⟩
    · rw [hw] at hr; cases hr
    · rw [deliver_tick_of_tickFaults b hf] at h; exact absurd hw h
    · rw [deliver_tick_of_next b hw hi hf] at h ⊢
      obtain ⟨x, rfl, hx⟩ := execNext_wait_writers i _ fun heq => h (heq.trans hw)
      exact ⟨b, x, rfl, hi, hx⟩
  | keypress key pressed =>
    obtain ⟨keys, ht⟩ := deliver_keypress_of_running hw key pressed
    rw [ht] at h
    exact absurd hw h
  | tickTimers | getDisplay | getSound => exact absurd hw h

/-- From AwaitingKey only RESET, a LOAD that fits and a press lead away. -/
theorem wait_deliver_of_waiting {s : State} {r : Reg} (hw : s.wait = some r) (e : Event)
    (h : (deliver e s).1.wait ≠ some r) :
    e = .reset ∨ (∃ rom, e = .load rom ∧ rom.length ≤ 3584) ∨ ∃ key, e = .keypress key true ∧ key ≤ 15 := by
  cases e with
  | reset => exact .inl rfl
  | load rom =>
    rcases Nat.lt_or_ge 3584 rom.length with hr | hr
    · rw [deliver_load_of_gt hr] at h; exact absurd hw h
    · exact .inr (.inl ⟨rom, rfl, hr⟩)
  | tick b => rw [deliver_tick_of_wait b hw] at h; exact absurd hw h
  | keypress key pressed =>
    rcases Nat.lt_or_ge 15 key with hk | hk
    · rw [deliver_keypress_of_gt hk] at h; exact absurd hw h
    · cases pressed with
      | true => exact .inr (.inr ⟨key, rfl, hk⟩)
      | false => rw [deliver_keypress_records (.inl rfl) (by omega)] at h; exact absurd hw h
  | tickTimers | getDisplay | getSound => exact absurd hw h

/-- Settles O51: the rows that enter, the rows that leave, and that there are no others. -/
theorem waitFollowsItsTransitionTable : Obligations.WaitFollowsItsTransitionTable := fun s =>
  ⟨wait_deliver_of_running,
    fun hw b x hi => congrArg (fun p : State × Response => p.1.wait) (deliver_tick_of_next (i := .ldVxK x) b hw hi rfl),
    fun _ _ _ => wait_press, fun _ h => wait_load h s, rfl, fun _ => wait_deliver_of_waiting⟩

/-! ### A fair history (R5, R225) -/

/-- Settles O58: some press comes; the wait is over before it, or with it. -/
theorem fairPressesEndEveryWait : Obligations.FairPressesEndEveryWait := by
  intro h s hfair n r _
  obtain ⟨m, hm, key, hk, he⟩ := hfair n
  exact ⟨m + 1, Nat.lt_succ_of_le hm, by rw [stateAt_succ, he]; exact wait_press hk⟩

end Sys2Proof.Machine

/-! Proofs/AluFlags: copy, logic, arithmetic with a flag, shifts and the random byte (42_alu.md). -/

namespace Sys2Proof.Machine

/-! ### Copy and logic (R123 to R126) -/

/-- An instruction that answers one `setReg` writes the destination and leaves every other register. -/
theorem setReg_writes_one (s : State) (x : Reg) (b : Byte) :
    ∃ v, Host.Outcome.next (s.setReg x b) = (.next { s with v := v } : Result) ∧ v[x.val] = b ∧
      ∀ q : Reg, q ≠ x → v[q.val] = s.reg q :=
  ⟨_, rfl, getElem_setReg_v_same s x b, fun _ => getElem_setReg_v_of_ne s b⟩

/-- Settles O16: the copy is one `setReg`. -/
theorem copyWritesOneRegister : Obligations.CopyWritesOneRegister := fun x y s =>
  ⟨decode_encode (i := .ldReg x y) rfl, setReg_writes_one s x (s.reg y)⟩

/-- Settles O17: each is one `setReg` of the bitwise combination, bit `k` of which is that of the operands' bits `k`. -/
theorem logicWorksBitwiseAndLeavesVf : Obligations.LogicWorksBitwiseAndLeavesVf := by
  intro x y s
  refine ⟨?_, ?_, ?_⟩
  · obtain ⟨v, hv, hx, hq⟩ := setReg_writes_one s x (s.reg x ||| s.reg y)
    exact ⟨v, hv, hq, fun k => by rw [hx, BitVec.getLsbD_or]⟩
  · obtain ⟨v, hv, hx, hq⟩ := setReg_writes_one s x (s.reg x &&& s.reg y)
    exact ⟨v, hv, hq, fun k => by rw [hx, BitVec.getLsbD_and]⟩
  · obtain ⟨v, hv, hx, hq⟩ := setReg_writes_one s x (s.reg x ^^^ s.reg y)
    exact ⟨v, hv, hq, fun k => by rw [hx, BitVec.getLsbD_xor]⟩

/-! ### Result, then flag (R120) -/

/-- What an instruction that answers one `setRegFlag` leaves, by the numbers of its result and its flag. -/
theorem setRegFlag_writes_two (s : State) (x : Reg) {b f : Byte} {result flag : Nat} (hf : f.toNat = flag)
    (hb : b.toNat = result) :
    ∃ v, Host.Outcome.next (s.setRegFlag x b f) = (.next { s with v := v } : Result) ∧ (v[15]).toNat = flag ∧
      (x ≠ 15 → (v[x.val]).toNat = result) ∧ ∀ q : Reg, q ≠ 15 → q ≠ x → v[q.val] = s.reg q := by
  refine ⟨(s.setRegFlag x b f).v, rfl, ?_, fun hx => ?_, fun q h15 hqx => ?_⟩
  · exact (congrArg BitVec.toNat ((reg_setRegFlag s x 15 b f).trans (if_pos rfl))).trans hf
  · exact (congrArg BitVec.toNat ((reg_setRegFlag s x x b f).trans ((if_neg hx).trans (if_pos rfl)))).trans hb
  · exact (reg_setRegFlag s x q b f).trans ((if_neg h15).trans (if_neg hqx))

theorem carryFlag_toNat (a b : Byte) : (carryFlag a b).toNat = if a.toNat + b.toNat > 255 then 1 else 0 := by
  simp only [carryFlag, flagByte_toNat, decide_eq_true_eq]

theorem notBorrowFlag_toNat (a b : Byte) : (notBorrowFlag a b).toNat = if a.toNat ≥ b.toNat then 1 else 0 := by
  simp only [notBorrowFlag, flagByte_toNat, decide_eq_true_eq]

theorem byte_sub_toNat (a b : Byte) : (a - b).toNat = (a.toNat + 256 - b.toNat) % 256 := by
  have := b.isLt
  rw [BitVec.toNat_sub]
  congr 1
  omega

/-- Settles O18: each is one `setRegFlag` of the wrapped result and of the flag of the old operands. -/
theorem addAndSubtractWriteResultThenFlag : Obligations.AddAndSubtractWriteResultThenFlag := fun x y s =>
  ⟨setRegFlag_writes_two s x (carryFlag_toNat (s.reg x) (s.reg y)) (BitVec.toNat_add (s.reg x) (s.reg y)),
    setRegFlag_writes_two s x (notBorrowFlag_toNat (s.reg x) (s.reg y)) (byte_sub_toNat (s.reg x) (s.reg y)),
    setRegFlag_writes_two s x (notBorrowFlag_toNat (s.reg y) (s.reg x)) (byte_sub_toNat (s.reg y) (s.reg x))⟩

/-! ### Shifts (R130, R132) -/

theorem droppedLowFlag_toNat (a : Byte) : (droppedLowFlag a).toNat = a.toNat % 2 := by
  rw [droppedLowFlag, flagByte_toNat, BitVec.getLsbD, Nat.testBit_zero]
  simp only [decide_eq_true_eq]
  split <;> omega

theorem droppedHighFlag_toNat (a : Byte) : (droppedHighFlag a).toNat = a.toNat / 128 := by
  have := a.isLt
  rw [droppedHighFlag, flagByte_toNat, BitVec.getLsbD, Nat.testBit_eq_decide_div_mod_eq]
  simp only [decide_eq_true_eq]
  split <;> omega

theorem byte_shiftRight_one_toNat (a : Byte) : (a >>> 1).toNat = a.toNat / 2 := by
  rw [BitVec.toNat_ushiftRight, Nat.shiftRight_eq_div_pow, Nat.pow_one]

theorem byte_shiftLeft_one_toNat (a : Byte) : (a <<< 1).toNat = a.toNat * 2 % 256 := by
  rw [BitVec.toNat_shiftLeft, Nat.shiftLeft_eq, Nat.pow_one]

/-- Settles O19: each is one `setRegFlag` of the shifted value and the dropped bit, and `y` does not occur in it. -/
theorem shiftsMoveOneBitOfVxIntoVf : Obligations.ShiftsMoveOneBitOfVxIntoVf := fun x _ s =>
  ⟨setRegFlag_writes_two s x (droppedLowFlag_toNat (s.reg x)) (byte_shiftRight_one_toNat (s.reg x)),
    setRegFlag_writes_two s x (droppedHighFlag_toNat (s.reg x)) (byte_shiftLeft_one_toNat (s.reg x))⟩

/-! ### The random byte (R133) -/

/-- Settles O20: CXNN is one `setReg` of the masked byte, before the model refills its own input. -/
theorem rndStoresTheMaskedInputByte : Obligations.RndStoresTheMaskedInputByte := by
  refine ⟨fun x nn s => ⟨_, _, rfl, getElem_setReg_v_same s x _, fun q => getElem_setReg_v_of_ne s _⟩,
    fun x nn b s hw hi => ?_⟩
  have hreg : (execNext (.rnd x nn) (State.advance { s with rand8 := b })).reg x = b &&& nn :=
    getElem_setReg_v_same (State.advance { s with rand8 := b }) x (b &&& nn)
  refine ⟨_, deliver_tick_of_next b hw hi rfl, rfl, hreg, fun k hk => ?_⟩
  rw [hreg, BitVec.getLsbD_and] at hk
  exact Bool.and_elim_right hk

end Sys2Proof.Machine

/-! Proofs/MemoryBlocks: the stores and loads at `I`, and the bytes that the next step fetches (43_index_memory.md,
20_memory.md). -/

namespace Sys2Proof.Machine

/-! ### The index register (R142, R143) -/

theorem glyphAddress_toNat (d : Fin 16) : (glyphAddress d).toNat = Config.fontBase.val + 5 * d.val := by
  have := Config.fontBase.isLt
  rw [glyphAddress, glyphAddressFor, BitVec.toNat_ofNat, fontBase, glyphBytes, Nat.mod_eq_of_lt (by omega)]

/-- Settles O22: a 16-bit sum wraps; the glyph's address is below 0x200, so it does not. -/
theorem addIndexWrapsAndGlyphAddressIsLinear : Obligations.AddIndexWrapsAndGlyphAddressIsLinear := by
  intro x s
  have hglyph := glyphAddress_toNat (lowNibble (s.reg x))
  rw [lowNibble_val] at hglyph
  have := Config.fontBase.isLt
  refine ⟨⟨_, rfl, ?_⟩, ⟨_, rfl, hglyph, by omega⟩⟩
  rw [BitVec.toNat_add, zext16_byte_toNat]

/-! ### The stores (R144, R145) -/

theorem exec_ldB_of_le {x : Reg} {s : State} (h : s.base + 3 ≤ 4096) :
    exec (.ldB x) s = .next { s with mem := storeAll s.mem s.base (bcdDigits (s.reg x)) } :=
  (execLdB_eq x s).trans (if_pos h)

theorem exec_ldB_of_gt {x : Reg} {s : State} (h : 4096 < s.base + 3) :
    exec (.ldB x) s = .fault .outOfBoundsAccess :=
  (execLdB_eq x s).trans (if_neg (by omega))

/-- The state that a FX55 inside memory leaves (R145). -/
def State.stored (s : State) (x : Reg) : State := { s with mem := storeAll s.mem s.base (s.regsUpTo x) }

theorem exec_stRegs_of_le {x : Reg} {s : State} (h : s.base + x.val + 1 ≤ 4096) :
    exec (.stRegs x) s = .next (s.stored x) :=
  (execStRegs_eq x s).trans (if_pos h)

theorem exec_stRegs_of_gt {x : Reg} {s : State} (h : 4096 < s.base + x.val + 1) :
    exec (.stRegs x) s = .fault .outOfBoundsAccess :=
  (execStRegs_eq x s).trans (if_neg (by omega))

@[simp] theorem bcdDigits_length (b : Byte) : (bcdDigits b).length = 3 := rfl

/-- Each of the three digits fits its byte. -/
theorem bcdDigits_toNat (b : Byte) :
    (bcdDigits b)[0].toNat = b.toNat / 100 ∧ (bcdDigits b)[1].toNat = b.toNat / 10 % 10 ∧
      (bcdDigits b)[2].toNat = b.toNat % 10 := by
  have := b.isLt
  simp only [bcdDigits, List.getElem_cons_zero, List.getElem_cons_succ, BitVec.toNat_ofNat]
  omega

/-- Settles O23: the three digits are the stored block. -/
theorem bcdStoresThreeDigits : Obligations.BcdStoresThreeDigits := by
  intro x s
  obtain ⟨h100, h10, h1⟩ := bcdDigits_toNat (s.reg x)
  refine ⟨fun h => ⟨_, exec_ldB_of_le h, ?_, ?_, ?_, fun a ha => read_storeAll_outside s.mem ha⟩, exec_ldB_of_gt⟩
  · exact (congrArg BitVec.toNat (read_storeAll_inside s.mem s.base (by simp))).trans h100
  · exact (congrArg BitVec.toNat (read_storeAll_inside s.mem s.base (by simp))).trans h10
  · exact (congrArg BitVec.toNat (read_storeAll_inside s.mem s.base (by simp))).trans h1

/-- The block that FX55 stores, register by register. -/
theorem read_stored (s : State) {x k : Reg} (h : k ≤ x) : (s.stored x).mem.read (s.base + k.val) = s.reg k := by
  have hk : k.val < (s.regsUpTo x).length := by rw [regsUpTo_length]; exact Nat.lt_succ_of_le h
  rw [State.stored, read_storeAll_inside s.mem s.base hk, regsUpTo_getElem]

theorem read_stored_of_outside (s : State) {x : Reg} {a : Nat} (h : a < s.base ∨ s.base + x.val + 1 ≤ a) :
    (s.stored x).mem.read a = s.mem.read a :=
  read_storeAll_outside s.mem (by rw [regsUpTo_length]; exact h)

/-- Settles O24: the registers are the stored block. -/
theorem blockStoreWritesRegistersUpToX : Obligations.BlockStoreWritesRegistersUpToX := fun x s =>
  ⟨fun h => ⟨(s.stored x).mem, exec_stRegs_of_le h, fun _ => read_stored s, fun _ => read_stored_of_outside s⟩,
    exec_stRegs_of_gt⟩

/-! ### The load (R146, R147) -/

theorem exec_ldRegs_of_le {x : Reg} {s : State} (h : s.base + x.val + 1 ≤ 4096) :
    exec (.ldRegs x) s = .next { s with v := fillRegs s.v 0 (s.bytesAt (x.val + 1)) } :=
  (execLdRegs_eq x s).trans (if_pos h)

theorem exec_ldRegs_of_gt {x : Reg} {s : State} (h : 4096 < s.base + x.val + 1) :
    exec (.ldRegs x) s = .fault .outOfBoundsAccess :=
  (execLdRegs_eq x s).trans (if_neg (by omega))

/-- The register file that FX65 leaves, register by register. -/
theorem getElem_fillRegs_bytesAt (v : Vector Byte 16) (s : State) (x q : Reg) :
    (fillRegs v 0 (s.bytesAt (x.val + 1)))[q.val] = if q ≤ x then s.mem.read (s.base + q.val) else v[q.val] := by
  rw [fillRegs_getElem _ _ _ _ q.isLt]
  by_cases h : q ≤ x
  · have hq : 0 ≤ q.val ∧ q.val < 0 + (s.bytesAt (x.val + 1)).length := by
      rw [bytesAt_length]
      exact ⟨Nat.zero_le _, by have : q.val ≤ x.val := h; omega⟩
    rw [dif_pos hq, if_pos h, bytesAt_getElem, Nat.sub_zero]
  · have hq : ¬(0 ≤ q.val ∧ q.val < 0 + (s.bytesAt (x.val + 1)).length) := by
      rw [bytesAt_length]
      have : ¬q.val ≤ x.val := h
      omega
    rw [dif_neg hq, if_neg h]

/-- Settles O25: the filled register file, register by register. -/
theorem blockLoadReadsRegistersUpToX : Obligations.BlockLoadReadsRegistersUpToX := fun x s =>
  ⟨fun h => ⟨_, exec_ldRegs_of_le h, getElem_fillRegs_bytesAt s.v s x⟩, exec_ldRegs_of_gt⟩

/-- Settles O26: the load reads the block that the store left; `I` and memory are as the store left them. -/
theorem storeThenLoadBringsRegistersBack : Obligations.StoreThenLoadBringsRegistersBack := by
  intro x s v h
  have hload := getElem_fillRegs_bytesAt v { s.stored x with v := v } x
  refine ⟨s.stored x, _, exec_stRegs_of_le h, exec_ldRegs_of_le (s := { s.stored x with v := v }) h, fun k hk => ?_,
    fun k hk => (hload k).trans (if_neg (not_le.mpr hk))⟩
  exact ((hload k).trans (if_pos hk)).trans (read_stored s hk)

/-! ### What the next step fetches (R47, R49) -/

/-- Settles O27: the word at the address after the store is the word of V0 and V1. -/
theorem storedBytesAreFetchedNext : Obligations.StoredBytesAreFetchedNext := by
  intro s x i hw hi hx hI hfit hd
  have hpc : s.advance.pc.toNat = s.base := congrArg BitVec.toNat hI.symm
  have hnext : (s.advance.stored x).nextInstr = .ok i := by
    refine nextInstr_of_decode (show s.advance.pc.toNat ≤ 0xFFE by omega) ?_
    have h0 : (s.advance.stored x).mem.read (s.base + (0 : Reg).val) = s.reg 0 := read_stored s.advance (Fin.zero_le x)
    have h1 : (s.advance.stored x).mem.read (s.base + (1 : Reg).val) = s.reg 1 := read_stored s.advance hx
    show decode ((s.advance.stored x).mem.read s.advance.pc.toNat ++
      (s.advance.stored x).mem.read (s.advance.pc.toNat + 1)) = .ok i
    rw [hpc]
    exact h0 ▸ h1 ▸ hd
  have hpc4 : s.pc + 2#16 + 2#16 = s.pc + 4 := BitVec.add_assoc s.pc 2#16 2#16
  refine ⟨s.advance.stored x, (step_of_ok hw hi).trans (exec_stRegs_of_le (s := s.advance) hfit), ?_⟩
  exact (step_of_ok (s := s.advance.stored x) hw hnext).trans
    (congrArg (fun p => exec i { s.advance.stored x with pc := p }) hpc4)

/-- Settles O40: the word at 0x200 is the word of the ROM's first two bytes. -/
theorem loadedProgramStartsAtItsFirstWord : Obligations.LoadedProgramStartsAtItsFirstWord := by
  intro s hi lo rest i hlen hd
  have hrom : (hi :: lo :: rest).length ≤ 3584 := by simp only [List.length_cons]; omega
  refine ⟨_, deliver_load_of_le hrom s, step_of_ok rfl (nextInstr_of_decode (by decide : (0x200#16).toNat ≤ 0xFFE) ?_)⟩
  have h0 : (s.loaded (hi :: lo :: rest)).mem.read (0x200 + 0) = hi := read_loaded_rom s _ (by simp)
  have h1 : (s.loaded (hi :: lo :: rest)).mem.read (0x200 + 1) = lo := read_loaded_rom s _ (by simp)
  exact h0.symm ▸ h1.symm ▸ hd

/-! ### What a TICK stores (R22, R46) -/

/-- Settles O48: only the two stores change memory, and outside the block they store it reads as before. -/
theorem memoryChangesOnlyInTheStoredBlock : Obligations.MemoryChangesOnlyInTheStoredBlock := by
  intro s t a h hne
  rcases step_next_cases h with ⟨r, -, rfl⟩ | ⟨-, i, hi, -, rfl⟩
  · exact absurd rfl hne
  · have hmem : (execNext i s.advance).mem ≠ s.mem := fun hm => hne (congrArg (Memory.read · a) hm)
    obtain ⟨x, rfl | rfl⟩ := execNext_mem_writers i s.advance hmem
    · have hin : ¬(a < s.base ∨ s.base + 3 ≤ a) := fun ho => hne (read_storeAll_outside s.mem ho)
      exact ⟨by omega, x, .inl ⟨hi, by omega⟩⟩
    · have hin : ¬(a < s.base ∨ s.base + x.val + 1 ≤ a) := fun ho => hne (read_stored_of_outside s.advance ho)
      exact ⟨by omega, x, .inr ⟨hi, by omega⟩⟩

end Sys2Proof.Machine

/-! Proofs/Draw: the sprite draw and the draw that undoes it (44_display.md section 2). -/

namespace Sys2Proof.Machine

/-! ### The state after a draw (R161) -/

/-- The state that a DXYN whose rows lie in memory leaves: the drawing's display, and then VF its collision mark. -/
def State.drawn (s : State) (x y : Reg) (n : Nat) : State :=
  State.setReg { s with disp := (s.drawing x y n).disp } Reg.vf (flagByte (s.drawing x y n).hit)

theorem exec_drw_of_le {x y : Reg} {n : Nat} {s : State} (h : n = 0 ∨ s.base + n ≤ 4096) :
    exec (.drw x y n) s = .next (s.drawn x y n) :=
  (execDrw_eq x y n s).trans (if_pos h)

theorem exec_drw_of_gt {x y : Reg} {n : Nat} {s : State} (h0 : 0 < n) (h : 4096 < s.base + n) :
    exec (.drw x y n) s = .fault .outOfBoundsAccess :=
  (execDrw_eq x y n s).trans (if_neg (by omega))

open Classical in
theorem drawn_pixel (s : State) (x y : Reg) {n : Nat} (hn : n < 16) (px : Fin 64) (py : Fin 32) :
    (s.drawn x y n).disp.pixel px py = (s.disp.pixel px py ^^ decide (s.touches x y n px py)) :=
  drawing_pixel s x y hn px py

theorem drawn_pixel_of_touches {s : State} {x y : Reg} {n : Nat} (hn : n < 16) {px : Fin 64} {py : Fin 32}
    (h : s.touches x y n px py) : (s.drawn x y n).disp.pixel px py = !s.disp.pixel px py := by
  simp only [drawn_pixel s x y hn, h, decide_true, Bool.xor_true]

theorem drawn_pixel_of_not_touches {s : State} {x y : Reg} {n : Nat} (hn : n < 16) {px : Fin 64} {py : Fin 32}
    (h : ¬s.touches x y n px py) : (s.drawn x y n).disp.pixel px py = s.disp.pixel px py := by
  simp only [drawn_pixel s x y hn, h, decide_false, Bool.xor_false]

/-- The pixels that differ from before are the touched ones. -/
theorem drawn_pixel_ne_iff (s : State) (x y : Reg) {n : Nat} (hn : n < 16) (px : Fin 64) (py : Fin 32) :
    (s.drawn x y n).disp.pixel px py ≠ s.disp.pixel px py ↔ s.touches x y n px py := by
  by_cases h : s.touches x y n px py
  · simp [drawn_pixel_of_touches hn h, h]
  · simp [drawn_pixel_of_not_touches hn h, h]

/-- A pixel goes from on to off exactly where it is touched and on. -/
theorem goes_off_iff (s : State) (x y : Reg) {n : Nat} (hn : n < 16) (px : Fin 64) (py : Fin 32) :
    s.disp.pixel px py = true ∧ (s.drawn x y n).disp.pixel px py = false ↔
      s.touches x y n px py ∧ s.disp.pixel px py = true := by
  by_cases h : s.touches x y n px py
  · simp [drawn_pixel_of_touches hn h, h]
  · simp [drawn_pixel_of_not_touches hn h, h]

theorem drawn_reg_of_ne (s : State) (x y : Reg) (n : Nat) {q : Reg} (hq : q ≠ 15) :
    (s.drawn x y n).reg q = s.reg q :=
  (reg_setReg _ Reg.vf q _).trans (if_neg hq)

theorem drawn_vf (s : State) (x y : Reg) (n : Nat) : (s.drawn x y n).reg 15 = flagByte (s.drawing x y n).hit :=
  (reg_setReg _ Reg.vf 15 _).trans (if_pos rfl)

theorem drawn_vf_of_hit {s : State} {x y : Reg} {n : Nat} (hn : n < 16)
    (h : ∃ px py, s.touches x y n px py ∧ s.disp.pixel px py = true) : (s.drawn x y n).reg 15 = 1 := by
  simp only [drawn_vf, drawing_hit s x y hn, h, decide_true]
  rfl

theorem drawn_vf_of_no_hit {s : State} {x y : Reg} {n : Nat} (hn : n < 16)
    (h : ¬∃ px py, s.touches x y n px py ∧ s.disp.pixel px py = true) : (s.drawn x y n).reg 15 = 0 := by
  simp only [drawn_vf, drawing_hit s x y hn, h, decide_false]
  rfl

/-- Settles O29: the pixels that differ are the touched ones, and the collision mark is a touched pixel that was on. -/
theorem drawInvertsSpritePixelsAndFlagsCollision : Obligations.DrawInvertsSpritePixelsAndFlagsCollision := by
  refine fun x y n s hn => ⟨fun h => ⟨(s.drawn x y n).v, (s.drawn x y n).disp, exec_drw_of_le h,
    drawn_pixel_ne_iff s x y hn, fun q => drawn_reg_of_ne s x y n, fun hoff => ?_, fun hoff => ?_⟩, exec_drw_of_gt⟩
  · simp only [goes_off_iff s x y hn] at hoff
    exact drawn_vf_of_hit hn hoff
  · simp only [goes_off_iff s x y hn] at hoff
    exact drawn_vf_of_no_hit hn hoff

/-! ### The same draw twice (R163) -/

/-- With neither coordinate in VF, the second draw touches the same pixels. -/
theorem touches_drawn {s : State} {x y : Reg} (n : Nat) (hx : x ≠ 15) (hy : y ≠ 15) (px : Fin 64) (py : Fin 32) :
    (s.drawn x y n).touches x y n px py ↔ s.touches x y n px py := by
  rw [State.touches, drawn_reg_of_ne s x y n hx, drawn_reg_of_ne s x y n hy]
  rfl

theorem drawn_drawn_disp {s : State} {x y : Reg} {n : Nat} (hn : n < 16) (hx : x ≠ 15) (hy : y ≠ 15) :
    ((s.drawn x y n).drawn x y n).disp = s.disp := by
  refine display_ext fun px py => ?_
  by_cases h : s.touches x y n px py
  · rw [drawn_pixel_of_touches hn ((touches_drawn n hx hy px py).mpr h), drawn_pixel_of_touches hn h, Bool.not_not]
  · rw [drawn_pixel_of_not_touches hn (fun h' => h ((touches_drawn n hx hy px py).mp h')),
      drawn_pixel_of_not_touches hn h]

/-- A draw that changes the display changes a touched pixel. -/
theorem exists_touches_of_ne {s : State} {x y : Reg} {n : Nat} (hn : n < 16)
    (h : (s.drawn x y n).disp ≠ s.disp) : ∃ px py, s.touches x y n px py := by
  by_contra hnone
  simp only [not_exists] at hnone
  exact h (display_ext fun px py => drawn_pixel_of_not_touches hn (hnone px py))

/-- Settles O30: the second draw inverts the same pixels again; a touched pixel is on before the first or the second. -/
theorem doubleDrawRestoresTheDisplay : Obligations.DoubleDrawRestoresTheDisplay := by
  intro x y n s hn hx hy hfit
  refine ⟨s.drawn x y n, (s.drawn x y n).drawn x y n, exec_drw_of_le hfit,
    exec_drw_of_le (s := s.drawn x y n) hfit, drawn_drawn_disp hn hx hy, fun hne => ?_⟩
  obtain ⟨px, py, h⟩ := exists_touches_of_ne hn hne
  cases hon : s.disp.pixel px py with
  | true => exact .inl (drawn_vf_of_hit hn ⟨px, py, h, hon⟩)
  | false =>
    refine .inr (drawn_vf_of_hit hn ⟨px, py, (touches_drawn n hx hy px py).mpr h, ?_⟩)
    rw [drawn_pixel_of_touches hn h, hon, Bool.not_false]

end Sys2Proof.Machine

/-! Proofs/Registers: which registers an instruction reads and writes, and VF (10_state.md sections 2, 3). -/

namespace Sys2Proof.Machine

open Claims

/-! ### Two register writes -/

theorem reg_setReg_of_ne (s : State) {q x : Reg} (b : Byte) (h : q ≠ x) : (s.setReg q b).reg x = s.reg x :=
  (reg_setReg s q x b).trans (if_neg (Ne.symm h))

theorem setReg_setReg (s : State) (q : Reg) (b c : Byte) : (s.setReg q b).setReg q c = s.setReg q c :=
  congrArg (fun v => { s with v := v }) (Vector.set_set ..)

theorem setReg_comm (s : State) {q x : Reg} (b c : Byte) (h : q ≠ x) :
    (s.setReg q b).setReg x c = (s.setReg x c).setReg q b :=
  congrArg (fun v => { s with v := v }) (Vector.set_comm _ _ (fun hv => h (Fin.ext hv)))

theorem setReg_skipIf (s : State) (q : Reg) (b : Byte) (c : Bool) : (s.setReg q b).skipIf c = (s.skipIf c).setReg q b := by
  cases c <;> rfl

theorem reg_skipIf (s : State) (c : Bool) (q : Reg) : (s.skipIf c).reg q = s.reg q := by cases c <;> rfl

/-! ### The register file after one instruction (R11) -/

theorem execNext_reg {i : Instr} {q : Reg} (h : writesReg i q = false) (s : State) :
    (execNext i s).reg q = s.reg q := by
  cases i with
  | ldImm x | addImm x | ldReg x | orReg x | andReg x | xorReg x | rnd x | ldVxDt x =>
    exact getElem_setReg_v_of_ne s _ (of_decide_eq_false h)
  | addReg x | subReg x | shr x | subnReg x | shl x =>
    obtain ⟨hx, hf⟩ := not_or.mp (of_decide_eq_false h)
    exact (reg_setRegFlag s x q _ _).trans ((if_neg hf).trans (if_neg hx))
  | drw x y n => exact drawn_reg_of_ne s x y n (of_decide_eq_false h)
  | ldRegs x => exact (getElem_fillRegs_bytesAt s.v s x q).trans (if_neg (of_decide_eq_false h))
  | seImm | sneImm | seReg | sneReg | skp | sknp => exact reg_skipIf ..
  | _ => rfl

/-! ### What does not read a register does not see it (R11) -/

theorem drawing_setReg (s : State) {q x y : Reg} (n : Nat) (b : Byte) (hx : q ≠ x) (hy : q ≠ y) :
    (s.setReg q b).drawing x y n = s.drawing x y n := by
  rw [State.drawing, reg_setReg_of_ne s b hx, reg_setReg_of_ne s b hy]
  rfl

theorem regsUpTo_setReg (s : State) {q x : Reg} (b : Byte) (h : ¬q ≤ x) :
    (s.setReg q b).regsUpTo x = s.regsUpTo x := by
  refine List.ext_getElem (by simp only [regsUpTo_length]) fun k hk _ => ?_
  rw [regsUpTo_getElem, regsUpTo_getElem, reg_setReg_of_ne s b]
  intro hqk
  have hq : q.val = k := congrArg Fin.val hqk
  rw [regsUpTo_length] at hk
  exact h (Fin.le_def.mpr (by omega))

/-- A load of a block that does not cover `V[q]` leaves it. -/
theorem fillRegs_set_of_not_le (s : State) {q x : Reg} (b : Byte) (h : ¬q ≤ x) :
    fillRegs (s.v.set q.val b) 0 (s.bytesAt (x.val + 1)) = (fillRegs s.v 0 (s.bytesAt (x.val + 1))).set q.val b := by
  refine Vector.ext fun k hk => ?_
  have hfill := fun v => getElem_fillRegs_bytesAt v s x ⟨k, hk⟩
  rw [Vector.getElem_set, hfill, hfill, Vector.getElem_set]
  by_cases hq : q.val = k
  · have hkx : ¬(⟨k, hk⟩ : Reg) ≤ x := fun hle => h (by subst hq; exact hle)
    simp only [hq, hkx, if_true, if_false]
  · simp only [hq, if_false]

/-- A load of a block that covers `V[q]` overwrites it. -/
theorem fillRegs_set_of_le (s : State) {q x : Reg} (b : Byte) (h : q ≤ x) :
    fillRegs (s.v.set q.val b) 0 (s.bytesAt (x.val + 1)) = fillRegs s.v 0 (s.bytesAt (x.val + 1)) := by
  refine Vector.ext fun k hk => ?_
  have hfill := fun v => getElem_fillRegs_bytesAt v s x ⟨k, hk⟩
  rw [hfill, hfill, Vector.getElem_set]
  by_cases hq : q.val = k
  · have hkx : (⟨k, hk⟩ : Reg) ≤ x := by subst hq; exact h
    simp only [hkx, if_true]
  · simp only [hq, if_false]

section Carried

variable (s : State) {q x y : Reg} (b : Byte)

theorem setReg_of_reads (g : Byte → Byte → Byte) (hx : q ≠ x) (hy : q ≠ y) :
    (s.setReg q b).setReg x (g ((s.setReg q b).reg x) ((s.setReg q b).reg y)) =
      (s.setReg x (g (s.reg x) (s.reg y))).setReg q b := by
  rw [reg_setReg_of_ne s b hx, reg_setReg_of_ne s b hy, setReg_comm s b _ hx]

theorem setRegFlag_of_reads (g f : Byte → Byte → Byte) (hx : q ≠ x) (hy : q ≠ y) (hq : q ≠ 15) :
    (s.setReg q b).setRegFlag x (g ((s.setReg q b).reg x) ((s.setReg q b).reg y))
        (f ((s.setReg q b).reg x) ((s.setReg q b).reg y)) =
      (s.setRegFlag x (g (s.reg x) (s.reg y)) (f (s.reg x) (s.reg y))).setReg q b := by
  rw [reg_setReg_of_ne s b hx, reg_setReg_of_ne s b hy, State.setRegFlag, setReg_comm s b _ hx, setReg_comm _ b _ hq]
  rfl

/-- The flag overwrites VF, where VF is no operand. -/
theorem setRegFlag_of_vf (g f : Byte → Byte → Byte) (hx : 15 ≠ x) (hy : 15 ≠ y) :
    (s.setReg 15 b).setRegFlag x (g ((s.setReg 15 b).reg x) ((s.setReg 15 b).reg y))
        (f ((s.setReg 15 b).reg x) ((s.setReg 15 b).reg y)) =
      s.setRegFlag x (g (s.reg x) (s.reg y)) (f (s.reg x) (s.reg y)) := by
  rw [reg_setReg_of_ne s b hx, reg_setReg_of_ne s b hy, State.setRegFlag, setReg_comm s b _ hx, setReg_setReg]
  rfl

theorem skipIf_of_reads (c : Byte → Byte → Bool) (hx : q ≠ x) (hy : q ≠ y) :
    (s.setReg q b).skipIf (c ((s.setReg q b).reg x) ((s.setReg q b).reg y)) =
      (s.skipIf (c (s.reg x) (s.reg y))).setReg q b := by
  rw [reg_setReg_of_ne s b hx, reg_setReg_of_ne s b hy, setReg_skipIf]

theorem drawn_setReg (n : Nat) (hx : q ≠ x) (hy : q ≠ y) (hq : q ≠ 15) :
    (s.setReg q b).drawn x y n = (s.drawn x y n).setReg q b := by
  rw [State.drawn, drawing_setReg s n b hx hy]
  exact setReg_comm { s with disp := (s.drawing x y n).disp } b _ hq

theorem drawn_setReg_vf (n : Nat) (hx : 15 ≠ x) (hy : 15 ≠ y) : (s.setReg 15 b).drawn x y n = s.drawn x y n := by
  rw [State.drawn, drawing_setReg s n b hx hy]
  exact setReg_setReg { s with disp := (s.drawing x y n).disp } Reg.vf b _

end Carried

/-- A register that an instruction neither writes nor reads is carried along. -/
theorem execNext_setReg_of_unused {i : Instr} {q : Reg} (hw : writesReg i q = false) (hr : readsReg i q = false)
    (s : State) (b : Byte) : execNext i (s.setReg q b) = (execNext i s).setReg q b := by
  cases i with
  | cls | ret | jp | call | ldI | ldVxK => rfl
  | ldImm x | ldVxDt x => exact setReg_comm s b _ (of_decide_eq_false hw)
  | rnd x => exact congrArg State.nextRand8 (setReg_comm s b _ (of_decide_eq_false hw))
  | addImm x nn => exact setReg_of_reads s b (fun a _ => a + nn) (of_decide_eq_false hw) (of_decide_eq_false hw)
  | ldReg x y => exact setReg_of_reads s b (fun _ a => a) (of_decide_eq_false hw) (of_decide_eq_false hr)
  | orReg x y => exact setReg_of_reads s b (· ||| ·) (of_decide_eq_false hw) (not_or.mp (of_decide_eq_false hr)).2
  | andReg x y => exact setReg_of_reads s b (· &&& ·) (of_decide_eq_false hw) (not_or.mp (of_decide_eq_false hr)).2
  | xorReg x y => exact setReg_of_reads s b (· ^^^ ·) (of_decide_eq_false hw) (not_or.mp (of_decide_eq_false hr)).2
  | addReg x y =>
    obtain ⟨hx, hq⟩ := not_or.mp (of_decide_eq_false hw)
    exact setRegFlag_of_reads s b (· + ·) carryFlag hx (not_or.mp (of_decide_eq_false hr)).2 hq
  | subReg x y =>
    obtain ⟨hx, hq⟩ := not_or.mp (of_decide_eq_false hw)
    exact setRegFlag_of_reads s b (· - ·) notBorrowFlag hx (not_or.mp (of_decide_eq_false hr)).2 hq
  | subnReg x y =>
    obtain ⟨hx, hq⟩ := not_or.mp (of_decide_eq_false hw)
    exact setRegFlag_of_reads s b (fun a c => c - a) (fun a c => notBorrowFlag c a) hx
      (not_or.mp (of_decide_eq_false hr)).2 hq
  | shr x y =>
    obtain ⟨hx, hq⟩ := not_or.mp (of_decide_eq_false hw)
    exact setRegFlag_of_reads s b (fun a _ => a >>> 1) (fun a _ => droppedLowFlag a) hx hx hq
  | shl x y =>
    obtain ⟨hx, hq⟩ := not_or.mp (of_decide_eq_false hw)
    exact setRegFlag_of_reads s b (fun a _ => a <<< 1) (fun a _ => droppedHighFlag a) hx hx hq
  | seImm x nn =>
    have hx := of_decide_eq_false hr
    exact skipIf_of_reads s b (fun a _ => a == nn) hx hx
  | sneImm x nn =>
    have hx := of_decide_eq_false hr
    exact skipIf_of_reads s b (fun a _ => a != nn) hx hx
  | seReg x y =>
    obtain ⟨hx, hy⟩ := not_or.mp (of_decide_eq_false hr)
    exact skipIf_of_reads s b (· == ·) hx hy
  | sneReg x y =>
    obtain ⟨hx, hy⟩ := not_or.mp (of_decide_eq_false hr)
    exact skipIf_of_reads s b (· != ·) hx hy
  | skp x =>
    have hx := of_decide_eq_false hr
    exact skipIf_of_reads s b (fun a _ => s.key (lowNibble a)) hx hx
  | sknp x =>
    have hx := of_decide_eq_false hr
    exact skipIf_of_reads s b (fun a _ => !s.key (lowNibble a)) hx hx
  | jpV0 nnn =>
    exact congrArg (fun a => { s.setReg q b with pc := zext16 a + zext16 nnn })
      (reg_setReg_of_ne s b (of_decide_eq_false hr))
  | ldDtVx x => exact congrArg (fun a => { s.setReg q b with dt := a }) (reg_setReg_of_ne s b (of_decide_eq_false hr))
  | ldStVx x => exact congrArg (fun a => { s.setReg q b with st := a }) (reg_setReg_of_ne s b (of_decide_eq_false hr))
  | addI x =>
    exact congrArg (fun a => { s.setReg q b with i := s.i + zext16 a }) (reg_setReg_of_ne s b (of_decide_eq_false hr))
  | ldF x =>
    exact congrArg (fun a => { s.setReg q b with i := glyphAddress (lowNibble a) })
      (reg_setReg_of_ne s b (of_decide_eq_false hr))
  | ldB x =>
    exact congrArg (fun a => { s.setReg q b with mem := storeAll s.mem s.base (bcdDigits a) })
      (reg_setReg_of_ne s b (of_decide_eq_false hr))
  | stRegs x =>
    exact congrArg (fun bs => { s.setReg q b with mem := storeAll s.mem s.base bs })
      (regsUpTo_setReg s b (of_decide_eq_false hr))
  | ldRegs x => exact congrArg (fun v => { s with v := v }) (fillRegs_set_of_not_le s b (of_decide_eq_false hw))
  | drw x y n =>
    obtain ⟨hx, hy⟩ := not_or.mp (of_decide_eq_false hr)
    exact drawn_setReg s b n hx hy (of_decide_eq_false hw)

/-- Of a flag writer's two destinations only VF is no operand. -/
theorem eq_vf_of_writes {q x : Reg} (hw : decide (q = x ∨ q = 15) = true) (hx : q ≠ x) : q = 15 :=
  (of_decide_eq_true hw).resolve_left hx

/-- A register that an instruction writes and does not read is overwritten. -/
theorem execNext_setReg_of_overwritten {i : Instr} {q : Reg} (hw : writesReg i q = true) (hr : readsReg i q = false)
    (s : State) (b : Byte) : execNext i (s.setReg q b) = execNext i s := by
  cases i with
  | ldImm x | ldVxDt x =>
    obtain rfl := of_decide_eq_true hw
    exact setReg_setReg s q b _
  | rnd x =>
    obtain rfl := of_decide_eq_true hw
    exact congrArg State.nextRand8 (setReg_setReg s q b _)
  | ldReg x y =>
    obtain rfl := of_decide_eq_true hw
    exact (setReg_setReg s q b _).trans (congrArg (s.setReg q) (reg_setReg_of_ne s b (of_decide_eq_false hr)))
  | addReg x y =>
    obtain ⟨hx, hy⟩ := not_or.mp (of_decide_eq_false hr)
    obtain rfl := eq_vf_of_writes hw hx
    exact setRegFlag_of_vf s b (· + ·) carryFlag hx hy
  | subReg x y =>
    obtain ⟨hx, hy⟩ := not_or.mp (of_decide_eq_false hr)
    obtain rfl := eq_vf_of_writes hw hx
    exact setRegFlag_of_vf s b (· - ·) notBorrowFlag hx hy
  | subnReg x y =>
    obtain ⟨hx, hy⟩ := not_or.mp (of_decide_eq_false hr)
    obtain rfl := eq_vf_of_writes hw hx
    exact setRegFlag_of_vf s b (fun a c => c - a) (fun a c => notBorrowFlag c a) hx hy
  | shr x y =>
    have hx := of_decide_eq_false hr
    obtain rfl := eq_vf_of_writes hw hx
    exact setRegFlag_of_vf s b (fun a _ => a >>> 1) (fun a _ => droppedLowFlag a) hx hx
  | shl x y =>
    have hx := of_decide_eq_false hr
    obtain rfl := eq_vf_of_writes hw hx
    exact setRegFlag_of_vf s b (fun a _ => a <<< 1) (fun a _ => droppedHighFlag a) hx hx
  | drw x y n =>
    obtain ⟨hx, hy⟩ := not_or.mp (of_decide_eq_false hr)
    obtain rfl := of_decide_eq_true hw
    exact drawn_setReg_vf s b n hx hy
  | ldRegs x => exact congrArg (fun v => { s with v := v }) (fillRegs_set_of_le s b (of_decide_eq_true hw))
  | addImm x nn => exact absurd (of_decide_eq_true hw) (of_decide_eq_false hr)
  | orReg x y | andReg x y | xorReg x y =>
    exact absurd (.inl (of_decide_eq_true hw)) (of_decide_eq_false hr)
  | _ => cases hw

/-! ### The obligations -/

/-- A register is no part of what makes an instruction fault. -/
theorem execFault_setReg (i : Instr) (s : State) (q : Reg) (b : Byte) :
    execFault i (s.setReg q b) = execFault i s := execFault_congr i rfl rfl

theorem exec_setReg_of_unused {i : Instr} {q : Reg} (hw : writesReg i q = false) (hr : readsReg i q = false)
    (s : State) (b : Byte) : exec i (s.setReg q b) = withReg q b (exec i s) := by
  rw [exec_eq, exec_eq, execFault_setReg, execNext_setReg_of_unused hw hr]
  cases execFault i s <;> rfl

theorem exec_setReg_of_overwritten {i : Instr} {q : Reg} (hw : writesReg i q = true) (hr : readsReg i q = false)
    (s : State) (b : Byte) : exec i (s.setReg q b) = exec i s := by
  rw [exec_eq, exec_eq, execFault_setReg, execNext_setReg_of_overwritten hw hr]

/-- Settles O45: a register not written is kept, one not used is carried along, one written and not read is overwritten;
the press after FX0A writes the register that FX0A named. -/
theorem registersAreReadAndWrittenAsListed : Obligations.RegistersAreReadAndWrittenAsListed := by
  refine ⟨fun i s t h q hq => ?_, fun i s q b hw hr => exec_setReg_of_unused hw hr s b,
    fun i s q b hw hr => exec_setReg_of_overwritten hw hr s b, fun x s t key h => ?_⟩
  · obtain ⟨-, rfl⟩ := exec_eq_next_iff.mp h
    exact execNext_reg hq s
  · cases h
    rw [deliver_press_of_wait (s := { s with wait := some x }) rfl key.isLt]
    exact (getElem_set_keyCode s x x key).trans (if_pos rfl)

theorem flagByte_eq_zero_or_one (c : Bool) : flagByte c = 0 ∨ flagByte c = 1 := by
  cases c with
  | false => exact .inl rfl
  | true => exact .inr rfl

/-- Whatever the result, the flag is what VF holds last (R120). -/
theorem setRegFlag_vf (s : State) (x : Reg) (b f : Byte) : (s.setRegFlag x b f).reg 15 = f :=
  (reg_setRegFlag s x 15 b f).trans (if_pos rfl)

/-- Settles O46: the flag writers put a flag in VF last; any other change of VF is by a listed destination. -/
theorem vfIsAFlagOfSixInstructionsOnly : Obligations.VfIsAFlagOfSixInstructionsOnly := by
  intro i s t h
  obtain ⟨-, rfl⟩ := exec_eq_next_iff.mp h
  refine ⟨?_, fun hne => ?_⟩
  · rintro ⟨x, y, n, rfl | rfl | rfl | rfl | rfl | rfl⟩
    · exact setRegFlag_vf s x _ (carryFlag (s.reg x) (s.reg y)) ▸ flagByte_eq_zero_or_one _
    · exact setRegFlag_vf s x _ (notBorrowFlag (s.reg x) (s.reg y)) ▸ flagByte_eq_zero_or_one _
    · exact setRegFlag_vf s x _ (droppedLowFlag (s.reg x)) ▸ flagByte_eq_zero_or_one _
    · exact setRegFlag_vf s x _ (notBorrowFlag (s.reg y) (s.reg x)) ▸ flagByte_eq_zero_or_one _
    · exact setRegFlag_vf s x _ (droppedHighFlag (s.reg x)) ▸ flagByte_eq_zero_or_one _
    · exact drawn_vf s x y n ▸ flagByte_eq_zero_or_one _
  · have hw : writesReg i 15 = true := by
      by_contra hw
      exact hne (execNext_reg (Bool.eq_false_of_not_eq_true hw) s)
    cases i with
    | addReg x y | subReg x y | shr x y | subnReg x y | shl x y => exact .inl ⟨x, y, 0, by simp⟩
    | drw x y n => exact .inl ⟨x, y, n, by simp⟩
    | ldImm x nn | addImm x nn | rnd x nn =>
      obtain rfl := of_decide_eq_true hw
      exact .inr ⟨0, nn, by simp⟩
    | ldReg x y | orReg x y | andReg x y | xorReg x y =>
      obtain rfl := of_decide_eq_true hw
      exact .inr ⟨y, 0, by simp⟩
    | ldVxDt x =>
      obtain rfl := of_decide_eq_true hw
      exact .inr ⟨0, 0, by simp⟩
    | ldRegs x =>
      obtain rfl : x = 15 := Fin.last_le_iff.mp (of_decide_eq_true hw)
      exact .inr ⟨0, 0, by simp⟩
    | _ => cases hw

end Sys2Proof.Machine
